-- ==== Sys2Proof/Word.lean ====
section
/-! DEFINITION. The 16-bit word, its two readings and `trunc16` (spec 00_scope.md R10, R11). -/

namespace Sys2Proof

/-- A word: 16 bits, numbered 15 (most significant) down to 0 (R10). -/
abbrev Word := BitVec 16

/-- `u(v)`: the pattern read as an unsigned number, 0 to 65535 (R11). -/
abbrev uval (v : Word) : Nat := v.toNat

/-- `s(v)`: the pattern read in two's complement, -32768 to 32767 (R11). -/
abbrev sval (v : Word) : Int := v.toInt

/-- `trunc16(n)`: the pattern `p` with `u(p) = n mod 65536`, for any integer `n` (R11). -/
def trunc16 (n : Int) : Word := BitVec.ofInt 16 n

end Sys2Proof
end

