-- ==== Sys2Proof/Machine/Alu.lean ====
section
/-! DEFINITION. What the ALU computes, on mathematical integers and narrowed at the end (41_arithmetic.md R141 to R147, 42_bitwise_shift.md R170 to R176). -/

namespace Sys2Proof.Machine

/-- `ADD` (R141). -/
def addOp (a b : Word) : Word := trunc16 (uval a + uval b)

/-- `SUB`: destination minus source (R142). -/
def subOp (a b : Word) : Word := trunc16 (uval a - uval b)

/-- `MUL`: the low 16 bits of the product (R143). -/
def mulOp (a b : Word) : Word := trunc16 (uval a * uval b)

/-- `INC` (R146). -/
def incOp (a : Word) : Word := trunc16 (uval a + 1)

/-- `tdiv`: the sign of `a * b`, and magnitude `floor(|a| / |b|)` (R147 point 4). -/
def tdiv (a b : Int) : Int := a.sign * b.sign * ((a.natAbs / b.natAbs : Nat) : Int)

/-- `trem(a, b) = a - b * tdiv(a, b)` (R147 point 4). -/
def trem (a b : Int) : Int := a - b * tdiv a b

/-- `DIV`, for a divisor that is not zero (R144). -/
def divOp (a b : Word) : Word := trunc16 (tdiv (sval a) (sval b))

/-- `MOD`, for a divisor that is not zero (R145). -/
def modOp (a b : Word) : Word := trunc16 (trem (sval a) (sval b))

/-- `AND` (R170). -/
def andOp (a b : Word) : Word := a &&& b

/-- `OR` (R171). -/
def orOp (a b : Word) : Word := a ||| b

/-- `XOR` (R172). -/
def xorOp (a b : Word) : Word := a ^^^ b

/-- `NOT` of the source (R173). -/
def notOp (b : Word) : Word := ~~~b

/-- `SHL`: `trunc16(u(a) * 2^n)`, which is 0 for every `n >= 16`; the amount is the whole source,
unsigned and unmasked (R174). -/
def shlOp (a b : Word) : Word :=
  if 16 ≤ uval b then 0 else trunc16 (uval a * 2 ^ uval b)

/-- `SHR`: `trunc16(floor(s(a) / 2^n))`, which for every `n >= 15` is all ones for a negative value
and 0 for any other (R175). -/
def shrOp (a b : Word) : Word :=
  if 16 ≤ uval b then (if sval a < 0 then 0xFFFF else 0)
  else trunc16 (Int.fdiv (sval a) (2 ^ uval b))

end Sys2Proof.Machine
end

