-- ==== Sys2Proof/Config.lean ====
section
/-! DEFINITION. The implementation parameters of spec 00_scope.md R9 that are values of this hardware. The spec leaves no value open (00_scope.md section 7, point 5), so there is no free value here. -/

namespace Sys2Proof.Config

/-- `RAM_WORDS` (R9, R32). -/
def ramWords : Nat := 65536

/-- `STACK_WORDS` (R9, R33). -/
def stackWords : Nat := 65536

/-- The bound on `PROG_LEN`: 0 <= PROG_LEN <= 65535 (R9, R302, D21). -/
def progLenMax : Nat := 65535

/-- `SP_RESET` (R9, D13). -/
def spReset : Word := 0x0000

/-- `PC_RESET` (R9, D21). -/
def pcReset : Word := 0x0000

/-- `RET_POPS`: whether RET decrements the stack pointer; this hardware keeps the observed
behaviour, false (R9, R219, D12). -/
def retPops : Bool := false

/-- The greatest value of the stack pointer, at which a push faults (R266). -/
def spMax : Word := 0xFFFF

/-- What a RAM or STACK word that nothing has written since reset reads as (R36, R60). -/
def unwritten : Word := 0x0000

end Sys2Proof.Config
end

