-- ==== Sys2Proof/Syntax.lean ====
section
/-! DEFINITION. The names of the instruction set (registers, opcodes, modes, operand kinds, fault causes) and `Instr`, one constructor per row of spec/opcode_table.json (30_encoding.md R87: 42 legal pairs). -/

namespace Sys2Proof

/-- The eight general registers (R22). An instruction names a register by its name, so a register
operand above 7 has no term here: it is rejected by the decoder (R85, R265). -/
inductive Reg where
  | A | B | C | D | E | F | G | H
deriving DecidableEq, Repr

/-- The 26 opcodes, in the order of R82. -/
inductive Opcode where
  | LD | MOV | ADD | SUB | MUL | DIV | MOD | INC | AND | OR | XOR | NOT | SHL | SHR
  | JMP | JEQ | JNE | JGT | JGE | JLT | JLE | CALL | RET | CMP | PUSH | POP
deriving DecidableEq, Repr

/-- The four addressing modes, in the order of R83. -/
inductive Mode where
  | IMPLIED | REGISTER | IMMEDIATE | INDIRECT
deriving DecidableEq, Repr

/-- The four kinds of operand word (R85): a register, a register used as a RAM pointer, a literal,
a jump target. -/
inductive OperandKind where
  | r | p | k | t
deriving DecidableEq, Repr

/-- The eight causes of a runtime fault (R260). -/
inductive FaultCause where
  | illegalOpcode | illegalMode | illegalPair | truncatedInstruction | badRegister
  | stackOverflow | stackUnderflow | divideByZero
deriving DecidableEq, Repr

/-- An (opcode, mode) pair with its operand words, legal or not: what one line of assembler text
emits, before the pair is packed into `w0` (R81, R100). -/
structure RawInstr where
  op : Opcode
  mode : Mode
  operands : List Word
deriving DecidableEq, Repr

/-- The instructions: one constructor per legal (opcode, mode) pair, in the order of R87. In the
operand names, `d` is a destination register, `s` a source register, `p` a pointer register, `k` a
literal and `t` a target. -/
inductive Instr where
  /-- `LD d s`, R120, mode REGISTER. -/
  | ldReg (d s : Reg)
  /-- `LD d #k`, R120, mode IMMEDIATE. -/
  | ldImm (d : Reg) (k : Word)
  /-- `MOV &p s`, R122, mode REGISTER. -/
  | movStoreReg (p s : Reg)
  /-- `MOV &p #k`, R123, mode IMMEDIATE. -/
  | movStoreImm (p : Reg) (k : Word)
  /-- `MOV d &p`, R121, mode INDIRECT. -/
  | movLoad (d p : Reg)
  /-- `ADD d s`, R141, mode REGISTER. -/
  | addReg (d s : Reg)
  /-- `ADD d #k`, R141, mode IMMEDIATE. -/
  | addImm (d : Reg) (k : Word)
  /-- `SUB d s`, R142, mode REGISTER. -/
  | subReg (d s : Reg)
  /-- `SUB d #k`, R142, mode IMMEDIATE. -/
  | subImm (d : Reg) (k : Word)
  /-- `MUL d s`, R143, mode REGISTER. -/
  | mulReg (d s : Reg)
  /-- `MUL d #k`, R143, mode IMMEDIATE. -/
  | mulImm (d : Reg) (k : Word)
  /-- `DIV d s`, R144, mode REGISTER. -/
  | divReg (d s : Reg)
  /-- `DIV d #k`, R144, mode IMMEDIATE. -/
  | divImm (d : Reg) (k : Word)
  /-- `MOD d s`, R145, mode REGISTER. -/
  | modReg (d s : Reg)
  /-- `MOD d #k`, R145, mode IMMEDIATE. -/
  | modImm (d : Reg) (k : Word)
  /-- `INC d`, R146, mode IMPLIED. -/
  | inc (d : Reg)
  /-- `AND d s`, R170, mode REGISTER. -/
  | andReg (d s : Reg)
  /-- `AND d #k`, R170, mode IMMEDIATE. -/
  | andImm (d : Reg) (k : Word)
  /-- `OR d s`, R171, mode REGISTER. -/
  | orReg (d s : Reg)
  /-- `OR d #k`, R171, mode IMMEDIATE. -/
  | orImm (d : Reg) (k : Word)
  /-- `XOR d s`, R172, mode REGISTER. -/
  | xorReg (d s : Reg)
  /-- `XOR d #k`, R172, mode IMMEDIATE. -/
  | xorImm (d : Reg) (k : Word)
  /-- `NOT d s`, R173, mode REGISTER. -/
  | notReg (d s : Reg)
  /-- `NOT d #k`, R173, mode IMMEDIATE. -/
  | notImm (d : Reg) (k : Word)
  /-- `SHL d s`, R174, mode REGISTER. -/
  | shlReg (d s : Reg)
  /-- `SHL d #k`, R174, mode IMMEDIATE. -/
  | shlImm (d : Reg) (k : Word)
  /-- `SHR d s`, R175, mode REGISTER. -/
  | shrReg (d s : Reg)
  /-- `SHR d #k`, R175, mode IMMEDIATE. -/
  | shrImm (d : Reg) (k : Word)
  /-- `JMP t`, R211, mode IMPLIED. -/
  | jmp (t : Word)
  /-- `JEQ t`, R212, mode IMPLIED. -/
  | jeq (t : Word)
  /-- `JNE t`, R213, mode IMPLIED. -/
  | jne (t : Word)
  /-- `JGT t`, R214, mode IMPLIED. -/
  | jgt (t : Word)
  /-- `JGE t`, R215, mode IMPLIED. -/
  | jge (t : Word)
  /-- `JLT t`, R216, mode IMPLIED. -/
  | jlt (t : Word)
  /-- `JLE t`, R217, mode IMPLIED. -/
  | jle (t : Word)
  /-- `CALL t`, R218, mode IMPLIED. -/
  | call (t : Word)
  /-- `RET`, R219, mode IMPLIED. -/
  | ret
  /-- `CMP d s`, R200, mode REGISTER. -/
  | cmpReg (d s : Reg)
  /-- `CMP d #k`, R200, mode IMMEDIATE. -/
  | cmpImm (d : Reg) (k : Word)
  /-- `PUSH s`, R240, mode REGISTER. -/
  | pushReg (s : Reg)
  /-- `PUSH #k`, R240, mode IMMEDIATE. -/
  | pushImm (k : Word)
  /-- `POP d`, R241, mode IMPLIED. -/
  | pop (d : Reg)
deriving DecidableEq, Repr

end Sys2Proof
end

