-- ==== Sys2Proof/WellFormed.lean ====
section
/-! DEFINITION. The checks on what stands outside the machine: a Program (R6, R9, R302) and an (opcode, mode) pair with its operand words (R84, R85, R87). A term of `Instr` satisfies the second by its type. -/

namespace Sys2Proof

/-- A Program is well formed when it has at most 65535 words (R9, R302). -/
def programWellFormed (p : List Word) : Bool := p.length ≤ Config.progLenMax

/-- The kinds of the operand words of each legal pair, `none` for a pair that is not legal: the
columns `w1` and `w2` of R87, for the opcode and the mode given. -/
def operandKinds (op : Opcode) (mode : Mode) : Option (List OperandKind) :=
  match op with
  | .LD | .ADD | .SUB | .MUL | .DIV | .MOD | .AND | .OR | .XOR | .NOT | .SHL | .SHR | .CMP =>
    match mode with
    | .REGISTER => some [.r, .r]
    | .IMMEDIATE => some [.r, .k]
    | .IMPLIED | .INDIRECT => none
  | .MOV =>
    match mode with
    | .REGISTER => some [.p, .r]
    | .IMMEDIATE => some [.p, .k]
    | .INDIRECT => some [.r, .p]
    | .IMPLIED => none
  | .INC | .POP =>
    match mode with
    | .IMPLIED => some [.r]
    | .REGISTER | .IMMEDIATE | .INDIRECT => none
  | .JMP | .JEQ | .JNE | .JGT | .JGE | .JLT | .JLE | .CALL =>
    match mode with
    | .IMPLIED => some [.t]
    | .REGISTER | .IMMEDIATE | .INDIRECT => none
  | .RET =>
    match mode with
    | .IMPLIED => some []
    | .REGISTER | .IMMEDIATE | .INDIRECT => none
  | .PUSH =>
    match mode with
    | .REGISTER => some [.r]
    | .IMMEDIATE => some [.k]
    | .IMPLIED | .INDIRECT => none

/-- An operand word fits its kind: a register ordinal is at most 7, a literal and a target are any
word (R85). -/
def OperandKind.admits : OperandKind → Word → Bool
  | .r, w | .p, w => uval w ≤ 7
  | .k, _ | .t, _ => true

/-- Every operand word fits its kind, and there are as many words as kinds. -/
def operandsFit : List OperandKind → List Word → Bool
  | [], [] => true
  | kd :: kds, w :: ws => kd.admits w && operandsFit kds ws
  | _, _ => false

/-- The pair is legal, has the number of operand words R84 gives it, and each fits its kind. -/
def RawInstr.wellFormed (x : RawInstr) : Bool :=
  match operandKinds x.op x.mode with
  | none => false
  | some kds => operandsFit kds x.operands

end Sys2Proof
end

