-- ==== Sys2Proof/Decode.lean ====
section
/-! DEFINITION. The Codec (30_encoding.md R80 to R92): the ordinals, the decoder in the order of R88, rejecting by name, and the encoder. The Program is a sequence of 16-bit words and nothing in the CORE addresses a byte (R51), so the decoder reads words. -/

namespace Sys2Proof

/-! ## Fields of the instruction word -/

/-- `w[15:8]` (R10, R80). -/
def hiByte (w : Word) : BitVec 8 := w.extractLsb' 8 8

/-- `w[7:0]` (R10, R80). -/
def loByte (w : Word) : BitVec 8 := w.extractLsb' 0 8

/-! ## Ordinals -/

/-- `OPC` (R82). -/
def Opcode.ordinal : Opcode → BitVec 8
  | .LD => 0x00#8 | .MOV => 0x01#8 | .ADD => 0x02#8 | .SUB => 0x03#8
  | .MUL => 0x04#8 | .DIV => 0x05#8 | .MOD => 0x06#8 | .INC => 0x07#8
  | .AND => 0x08#8 | .OR => 0x09#8 | .XOR => 0x0A#8 | .NOT => 0x0B#8
  | .SHL => 0x0C#8 | .SHR => 0x0D#8 | .JMP => 0x0E#8 | .JEQ => 0x0F#8
  | .JNE => 0x10#8 | .JGT => 0x11#8 | .JGE => 0x12#8 | .JLT => 0x13#8
  | .JLE => 0x14#8 | .CALL => 0x15#8 | .RET => 0x16#8 | .CMP => 0x17#8
  | .PUSH => 0x18#8 | .POP => 0x19#8

/-- Every opcode, in the order of R82. -/
def Opcode.all : List Opcode :=
  [.LD, .MOV, .ADD, .SUB, .MUL, .DIV, .MOD, .INC, .AND, .OR, .XOR, .NOT, .SHL,
   .SHR, .JMP, .JEQ, .JNE, .JGT, .JGE, .JLT, .JLE, .CALL, .RET, .CMP, .PUSH, .POP]

/-- The inverse of `OPC`; `none` for an opcode byte that R82 leaves undefined (0x1A to 0xFF). -/
def Opcode.ofOrdinal? (b : BitVec 8) : Option Opcode := Opcode.all.find? (fun o => o.ordinal == b)

/-- `MODE` (R83). -/
def Mode.ordinal : Mode → BitVec 8
  | .IMPLIED => 0#8 | .REGISTER => 1#8 | .IMMEDIATE => 2#8 | .INDIRECT => 3#8

/-- Every mode, in the order of R83. -/
def Mode.all : List Mode := [.IMPLIED, .REGISTER, .IMMEDIATE, .INDIRECT]

/-- The inverse of `MODE`; `none` for a mode byte that R83 leaves undefined (0x04 to 0xFF). -/
def Mode.ofOrdinal? (b : BitVec 8) : Option Mode := Mode.all.find? (fun m => m.ordinal == b)

/-- The ordinal an operand word carries to name a register (R22, R85, R100). -/
def Reg.ordinal : Reg → Word
  | .A => 0#16 | .B => 1#16 | .C => 2#16 | .D => 3#16
  | .E => 4#16 | .F => 5#16 | .G => 6#16 | .H => 7#16

/-- Every register, in the order of R22. -/
def Reg.all : List Reg := [.A, .B, .C, .D, .E, .F, .G, .H]

/-- `Reg(w)` (R85): the register a whole operand word names; `none` when `u(w) >= 8`. -/
def Reg.ofOrdinal? (w : Word) : Option Reg := Reg.all.find? (fun r => r.ordinal == w)

/-! ## The instruction word -/

/-- `encode(opcode, mode)`: the opcode in the high byte, the mode in the low byte (R81). -/
def codec (op : Opcode) (mode : Mode) : Word := op.ordinal ++ mode.ordinal

/-- Why the decoder rejects a word; one name for each failing check of R88. -/
inductive Reject where
  /-- Step 1: `w0[15:8] > 25` (R261). -/
  | illegalOpcode
  /-- Step 2: `w0[7:0] > 3` (R262). -/
  | illegalMode
  /-- Step 3: the pair is not in R87 (R263). -/
  | illegalPair
  /-- Step 4: an operand word lies at or beyond `PROG_LEN` (R91, R264). -/
  | truncated
  /-- Step 6: `w1` must name a register and is above 7 (R265). -/
  | badRegisterW1
  /-- Step 7: `w2` must name a register and is above 7 (R265). -/
  | badRegisterW2
deriving DecidableEq, Repr

/-- What steps 1 and 2 of R88 make of an instruction word. -/
inductive DecodedPair where
  | pair (op : Opcode) (mode : Mode)
  | bad (r : Reject)
deriving DecidableEq, Repr

/-- `decode(w)` of the Codec (R81): steps 1 and 2 of R88. -/
def decodePair (w0 : Word) : DecodedPair :=
  match Opcode.ofOrdinal? (hiByte w0) with
  | none => .bad .illegalOpcode
  | some op =>
    match Mode.ofOrdinal? (loByte w0) with
    | none => .bad .illegalMode
    | some mode => .pair op mode

/-! ## The legal pairs -/

/-- The operand words of a legal pair, and the instruction they make. The kinds `r` and `p` are
read alike, as a register ordinal, and so are `k` and `t`, as the word itself (R85). -/
inductive Form where
  | none (i : Instr)
  | reg (mk : Reg → Instr)
  | word (mk : Word → Instr)
  | regReg (mk : Reg → Reg → Instr)
  | regWord (mk : Reg → Word → Instr)

/-- The table of legal pairs (R87); `none` for each of the 62 incompatible pairs (R89). -/
def form (op : Opcode) (mode : Mode) : Option Form :=
  match op with
  | .LD => match mode with
    | .REGISTER => some (.regReg .ldReg)
    | .IMMEDIATE => some (.regWord .ldImm)
    | .IMPLIED | .INDIRECT => none
  | .MOV => match mode with
    | .REGISTER => some (.regReg .movStoreReg)
    | .IMMEDIATE => some (.regWord .movStoreImm)
    | .INDIRECT => some (.regReg .movLoad)
    | .IMPLIED => none
  | .ADD => match mode with
    | .REGISTER => some (.regReg .addReg)
    | .IMMEDIATE => some (.regWord .addImm)
    | .IMPLIED | .INDIRECT => none
  | .SUB => match mode with
    | .REGISTER => some (.regReg .subReg)
    | .IMMEDIATE => some (.regWord .subImm)
    | .IMPLIED | .INDIRECT => none
  | .MUL => match mode with
    | .REGISTER => some (.regReg .mulReg)
    | .IMMEDIATE => some (.regWord .mulImm)
    | .IMPLIED | .INDIRECT => none
  | .DIV => match mode with
    | .REGISTER => some (.regReg .divReg)
    | .IMMEDIATE => some (.regWord .divImm)
    | .IMPLIED | .INDIRECT => none
  | .MOD => match mode with
    | .REGISTER => some (.regReg .modReg)
    | .IMMEDIATE => some (.regWord .modImm)
    | .IMPLIED | .INDIRECT => none
  | .INC => match mode with
    | .IMPLIED => some (.reg .inc)
    | .REGISTER | .IMMEDIATE | .INDIRECT => none
  | .AND => match mode with
    | .REGISTER => some (.regReg .andReg)
    | .IMMEDIATE => some (.regWord .andImm)
    | .IMPLIED | .INDIRECT => none
  | .OR => match mode with
    | .REGISTER => some (.regReg .orReg)
    | .IMMEDIATE => some (.regWord .orImm)
    | .IMPLIED | .INDIRECT => none
  | .XOR => match mode with
    | .REGISTER => some (.regReg .xorReg)
    | .IMMEDIATE => some (.regWord .xorImm)
    | .IMPLIED | .INDIRECT => none
  | .NOT => match mode with
    | .REGISTER => some (.regReg .notReg)
    | .IMMEDIATE => some (.regWord .notImm)
    | .IMPLIED | .INDIRECT => none
  | .SHL => match mode with
    | .REGISTER => some (.regReg .shlReg)
    | .IMMEDIATE => some (.regWord .shlImm)
    | .IMPLIED | .INDIRECT => none
  | .SHR => match mode with
    | .REGISTER => some (.regReg .shrReg)
    | .IMMEDIATE => some (.regWord .shrImm)
    | .IMPLIED | .INDIRECT => none
  | .JMP => match mode with
    | .IMPLIED => some (.word .jmp)
    | .REGISTER | .IMMEDIATE | .INDIRECT => none
  | .JEQ => match mode with
    | .IMPLIED => some (.word .jeq)
    | .REGISTER | .IMMEDIATE | .INDIRECT => none
  | .JNE => match mode with
    | .IMPLIED => some (.word .jne)
    | .REGISTER | .IMMEDIATE | .INDIRECT => none
  | .JGT => match mode with
    | .IMPLIED => some (.word .jgt)
    | .REGISTER | .IMMEDIATE | .INDIRECT => none
  | .JGE => match mode with
    | .IMPLIED => some (.word .jge)
    | .REGISTER | .IMMEDIATE | .INDIRECT => none
  | .JLT => match mode with
    | .IMPLIED => some (.word .jlt)
    | .REGISTER | .IMMEDIATE | .INDIRECT => none
  | .JLE => match mode with
    | .IMPLIED => some (.word .jle)
    | .REGISTER | .IMMEDIATE | .INDIRECT => none
  | .CALL => match mode with
    | .IMPLIED => some (.word .call)
    | .REGISTER | .IMMEDIATE | .INDIRECT => none
  | .RET => match mode with
    | .IMPLIED => some (.none .ret)
    | .REGISTER | .IMMEDIATE | .INDIRECT => none
  | .CMP => match mode with
    | .REGISTER => some (.regReg .cmpReg)
    | .IMMEDIATE => some (.regWord .cmpImm)
    | .IMPLIED | .INDIRECT => none
  | .PUSH => match mode with
    | .REGISTER => some (.reg .pushReg)
    | .IMMEDIATE => some (.word .pushImm)
    | .IMPLIED | .INDIRECT => none
  | .POP => match mode with
    | .IMPLIED => some (.reg .pop)
    | .REGISTER | .IMMEDIATE | .INDIRECT => none

/-! ## The decoder -/

/-- The decoder's answer: an instruction, or a rejection by name. -/
inductive Decoded where
  | ok (i : Instr)
  | bad (r : Reject)
deriving DecidableEq, Repr

/-- Steps 4 to 7 of R88: the words that follow `w0` in the Program are in `rest`, as far as the
Program goes, so a missing word is an operand at or beyond `PROG_LEN`. Truncation is found before
any operand is checked (R270). -/
def decodeOperands (f : Form) (rest : List Word) : Decoded :=
  match f with
  | .none i => .ok i
  | .reg mk =>
    match rest with
    | [] => .bad .truncated
    | w1 :: _ =>
      match Reg.ofOrdinal? w1 with
      | none => .bad .badRegisterW1
      | some a => .ok (mk a)
  | .word mk =>
    match rest with
    | [] => .bad .truncated
    | w1 :: _ => .ok (mk w1)
  | .regReg mk =>
    match rest with
    | [] => .bad .truncated
    | [_] => .bad .truncated
    | w1 :: w2 :: _ =>
      match Reg.ofOrdinal? w1 with
      | none => .bad .badRegisterW1
      | some a =>
        match Reg.ofOrdinal? w2 with
        | none => .bad .badRegisterW2
        | some b => .ok (mk a b)
  | .regWord mk =>
    match rest with
    | [] => .bad .truncated
    | [_] => .bad .truncated
    | w1 :: w2 :: _ =>
      match Reg.ofOrdinal? w1 with
      | none => .bad .badRegisterW1
      | some a => .ok (mk a w2)

/-- Decoding (R88): `w0` is the word at `pc`, `rest` the words of the Program after it. Total on any
words (R89, R102). -/
def decode (w0 : Word) (rest : List Word) : Decoded :=
  match decodePair w0 with
  | .bad r => .bad r
  | .pair op mode =>
    match form op mode with
    | none => .bad .illegalPair
    | some f => decodeOperands f rest

/-! ## The encoder -/

/-- The pair and the operand words of an instruction: the row of R87 it stands for, its operands as
whole words (R85, R100). -/
def Instr.raw : Instr → RawInstr
  | .ldReg d s => ⟨.LD, .REGISTER, [d.ordinal, s.ordinal]⟩
  | .ldImm d k => ⟨.LD, .IMMEDIATE, [d.ordinal, k]⟩
  | .movStoreReg p s => ⟨.MOV, .REGISTER, [p.ordinal, s.ordinal]⟩
  | .movStoreImm p k => ⟨.MOV, .IMMEDIATE, [p.ordinal, k]⟩
  | .movLoad d p => ⟨.MOV, .INDIRECT, [d.ordinal, p.ordinal]⟩
  | .addReg d s => ⟨.ADD, .REGISTER, [d.ordinal, s.ordinal]⟩
  | .addImm d k => ⟨.ADD, .IMMEDIATE, [d.ordinal, k]⟩
  | .subReg d s => ⟨.SUB, .REGISTER, [d.ordinal, s.ordinal]⟩
  | .subImm d k => ⟨.SUB, .IMMEDIATE, [d.ordinal, k]⟩
  | .mulReg d s => ⟨.MUL, .REGISTER, [d.ordinal, s.ordinal]⟩
  | .mulImm d k => ⟨.MUL, .IMMEDIATE, [d.ordinal, k]⟩
  | .divReg d s => ⟨.DIV, .REGISTER, [d.ordinal, s.ordinal]⟩
  | .divImm d k => ⟨.DIV, .IMMEDIATE, [d.ordinal, k]⟩
  | .modReg d s => ⟨.MOD, .REGISTER, [d.ordinal, s.ordinal]⟩
  | .modImm d k => ⟨.MOD, .IMMEDIATE, [d.ordinal, k]⟩
  | .inc d => ⟨.INC, .IMPLIED, [d.ordinal]⟩
  | .andReg d s => ⟨.AND, .REGISTER, [d.ordinal, s.ordinal]⟩
  | .andImm d k => ⟨.AND, .IMMEDIATE, [d.ordinal, k]⟩
  | .orReg d s => ⟨.OR, .REGISTER, [d.ordinal, s.ordinal]⟩
  | .orImm d k => ⟨.OR, .IMMEDIATE, [d.ordinal, k]⟩
  | .xorReg d s => ⟨.XOR, .REGISTER, [d.ordinal, s.ordinal]⟩
  | .xorImm d k => ⟨.XOR, .IMMEDIATE, [d.ordinal, k]⟩
  | .notReg d s => ⟨.NOT, .REGISTER, [d.ordinal, s.ordinal]⟩
  | .notImm d k => ⟨.NOT, .IMMEDIATE, [d.ordinal, k]⟩
  | .shlReg d s => ⟨.SHL, .REGISTER, [d.ordinal, s.ordinal]⟩
  | .shlImm d k => ⟨.SHL, .IMMEDIATE, [d.ordinal, k]⟩
  | .shrReg d s => ⟨.SHR, .REGISTER, [d.ordinal, s.ordinal]⟩
  | .shrImm d k => ⟨.SHR, .IMMEDIATE, [d.ordinal, k]⟩
  | .jmp t => ⟨.JMP, .IMPLIED, [t]⟩
  | .jeq t => ⟨.JEQ, .IMPLIED, [t]⟩
  | .jne t => ⟨.JNE, .IMPLIED, [t]⟩
  | .jgt t => ⟨.JGT, .IMPLIED, [t]⟩
  | .jge t => ⟨.JGE, .IMPLIED, [t]⟩
  | .jlt t => ⟨.JLT, .IMPLIED, [t]⟩
  | .jle t => ⟨.JLE, .IMPLIED, [t]⟩
  | .call t => ⟨.CALL, .IMPLIED, [t]⟩
  | .ret => ⟨.RET, .IMPLIED, []⟩
  | .cmpReg d s => ⟨.CMP, .REGISTER, [d.ordinal, s.ordinal]⟩
  | .cmpImm d k => ⟨.CMP, .IMMEDIATE, [d.ordinal, k]⟩
  | .pushReg s => ⟨.PUSH, .REGISTER, [s.ordinal]⟩
  | .pushImm k => ⟨.PUSH, .IMMEDIATE, [k]⟩
  | .pop d => ⟨.POP, .IMPLIED, [d.ordinal]⟩

/-- The instruction word `w0` of an instruction (R81, R87). -/
def Instr.word0 (i : Instr) : Word := codec i.raw.op i.raw.mode

/-- The words of an instruction: `w0`, then its operand words (R80, R100). -/
def encode (i : Instr) : List Word := i.word0 :: i.raw.operands

/-- `L`, the length in words: 1 plus the number of operand words (R84). -/
def Instr.length (i : Instr) : Nat := 1 + i.raw.operands.length

/-! ## The opcode table's numbering -/

/-- The three words that `w` stands for when bit 0 is the least significant bit of the first word,
the second word is bits 31..16 and the third bits 47..32; every bit at or above `nbits` is 0. -/
def tableWords (nbits w : Nat) : List Word :=
  let v := w % 2 ^ nbits
  [BitVec.ofNat 16 v, BitVec.ofNat 16 (v / 65536), BitVec.ofNat 16 (v / 4294967296)]

/-- The instruction the decoder reads from an opcode-table row's bits. -/
def decodeTableWord (nbits w : Nat) : Option Instr :=
  match tableWords nbits w with
  | [] => none
  | w0 :: rest =>
    match decode w0 rest with
    | .ok i => some i
    | .bad _ => none

end Sys2Proof
end

