-- ==== Sys2Proof/Machine/State.lean ====
section
/-! DEFINITION. The state of the CORE as plain data (10_state.md R20), its value after reset (R36), and the reasons a step can stop. -/

namespace Sys2Proof.Machine

/-- The register file: eight 16-bit registers, none of them hard-wired (R21, R22). -/
structure RegFile where
  A : Word
  B : Word
  C : Word
  D : Word
  E : Word
  F : Word
  G : Word
  H : Word
deriving DecidableEq, Repr

/-- A memory of 65536 16-bit words, as the list of (word address, word) pairs that differ from the
reset contents. The word is the smallest addressable unit of every space (R51), so a cell holds a
word, not a byte. -/
abbrev Memory := List (Nat × Word)

/-- The canonical form of a memory: addresses strictly rising and below 65536, and no entry equal to
what an unlisted address reads as. -/
abbrev Memory.wf (m : Memory) : Prop :=
  m.Pairwise (fun a b => a.1 < b.1) ∧ ∀ c ∈ m, c.1 < 65536 ∧ c.2 ≠ Config.unwritten

/-- The architectural state of R20, and the Program, which is the run's input (R6): the machine has
one step function of one argument, so its input stands beside its state (log entry 1). -/
structure State where
  /-- `x[0..7]`. -/
  regs : RegFile
  /-- The program counter: a word offset into the Program (R24). -/
  pc : Word
  /-- The stack pointer (R27). -/
  sp : Word
  /-- The flag `less_than` (R28). -/
  lt : Bool
  /-- The flag `greater_than` (R28). -/
  gt : Bool
  /-- The fault record: cause code, 0 when no fault has happened since reset (R30, R260). -/
  faultCause : BitVec 4
  /-- The fault record: `pc` of the faulting instruction (R30). -/
  faultPc : Word
  /-- The fault record: instruction word of the faulting instruction (R30). -/
  faultWord : Word
  /-- `RAM[0..65535]` (R32). -/
  ram : Memory
  /-- `STACK[0..65535]`, an array separate from `ram` (R33). -/
  stack : Memory
  /-- `PROGRAM[0 .. PROG_LEN-1]`; `PROG_LEN` is its length (R6, R34). -/
  program : List Word
deriving DecidableEq, Repr

/-- Why the machine takes no step. The eight runtime faults of R260 are not here: a step that meets
one is taken, writes the fault record and ends in a next state (R269). -/
inductive Fault where
  /-- Raised by `step` in a state where `halted` holds: the run ended normally, and no state changes
  until reset (R31, R304). Safe: the hardware takes no step either. -/
  | halted
  /-- Raised by `step` in a state where `faulted` holds: an earlier step wrote the fault record, and
  no state changes until reset (R31, R269). Safe: the hardware takes no step either. -/
  | faulted
deriving DecidableEq, Repr

/-- What the model declines. -/
inductive Refusal where
  /-- Raised by `exec` for an instruction that has no meaning yet. Safe: nothing is claimed of it. -/
  | notModelled (mnemonic : String)
  /-- Raised by `step` when the Program has more than 65535 words, which the spec places outside
  itself (R9, R302, U21). Safe: nothing is claimed of such a run. -/
  | programTooLong
deriving DecidableEq, Repr

/-- What a meaning and a step answer. -/
abbrev Result := Host.Outcome State Fault Refusal

/-- The machine right after reset (R36): every piece of state of R20 is zero. The Program is placed
by the host before reset (R302); none is placed here, so `PROG_LEN` is 0. -/
def State.reset : State where
  regs := ⟨0, 0, 0, 0, 0, 0, 0, 0⟩
  pc := Config.pcReset
  sp := Config.spReset
  lt := false
  gt := false
  faultCause := 0
  faultPc := 0
  faultWord := 0
  ram := []
  stack := []
  program := []

end Sys2Proof.Machine
end

