-- ==== Sys2Proof/Machine/Ops.lean ====
section
/-! DEFINITION. The named operations over registers, memories, the program counter and the stack; the terminal predicates; taking a fault, as one shared operation. -/

namespace Sys2Proof.Machine

/-! ## Registers (R12, R23) -/

/-- `x[r]`. -/
def RegFile.get (f : RegFile) : Reg → Word
  | .A => f.A | .B => f.B | .C => f.C | .D => f.D
  | .E => f.E | .F => f.F | .G => f.G | .H => f.H

/-- `x[r] <- v`. -/
def RegFile.set (f : RegFile) (r : Reg) (v : Word) : RegFile :=
  match r with
  | .A => { f with A := v }
  | .B => { f with B := v }
  | .C => { f with C := v }
  | .D => { f with D := v }
  | .E => { f with E := v }
  | .F => { f with F := v }
  | .G => { f with G := v }
  | .H => { f with H := v }

/-- `x[r]` in a state. -/
def State.reg (s : State) (r : Reg) : Word := s.regs.get r

/-- `x[r] <- v` in a state. -/
def State.setReg (s : State) (r : Reg) (v : Word) : State := { s with regs := s.regs.set r v }

/-! ## Memories (R57, R58, R60) -/

/-- The word at an address: the word last written there, or the reset value. -/
def Memory.read : Memory → Nat → Word
  | [], _ => Config.unwritten
  | (k, v) :: m, a => if k = a then v else Memory.read m a

/-- Write one word, keeping the canonical form; every other address keeps its word. -/
def Memory.write : Memory → Nat → Word → Memory
  | [], a, v => if v = Config.unwritten then [] else [(a, v)]
  | (k, w) :: m, a, v =>
    if a < k then
      if v = Config.unwritten then (k, w) :: m else (a, v) :: (k, w) :: m
    else if a = k then
      if v = Config.unwritten then m else (a, v) :: m
    else (k, w) :: Memory.write m a v

/-- `MemRead(addr, 1)`: `RAM[u(addr)]` (R12, R57). -/
def State.ramRead (s : State) (addr : Word) : Word := s.ram.read (uval addr)

/-- `MemWrite(addr, 1, v)`: `RAM[u(addr)] <- v` (R12, R57). -/
def State.ramWrite (s : State) (addr v : Word) : State :=
  { s with ram := s.ram.write (uval addr) v }

/-- `StackRead(a)`: `STACK[a]` (R12, R58). -/
def State.stackRead (s : State) (a : Word) : Word := s.stack.read (uval a)

/-- `StackWrite(a, v)`: `STACK[a] <- v` (R12, R58). -/
def State.stackWrite (s : State) (a v : Word) : State :=
  { s with stack := s.stack.write (uval a) v }

/-! ## Program counter, flags, stack pointer -/

/-- `pc <- pc + L` (R25). -/
def State.advance (s : State) (len : Nat) : State := { s with pc := s.pc + BitVec.ofNat 16 len }

/-- `pc <- target`, the word used as it is (R210, R221). -/
def State.jumpTo (s : State) (target : Word) : State := { s with pc := target }

/-- CMP writes both flags (R28, R200). -/
def State.setFlags (s : State) (lt gt : Bool) : State := { s with lt := lt, gt := gt }

/-- `sp <- v`. -/
def State.setSp (s : State) (v : Word) : State := { s with sp := v }

/-- The push of PUSH and CALL, its range check made before: `sp <- sp + 1`, then the word is stored
at the incremented index (R58, R218, R240). -/
def State.push (s : State) (v : Word) : State :=
  (s.setSp (s.sp + 1)).stackWrite (s.sp + 1) v

/-! ## Terminal predicates (R31) -/

/-- `faulted := fault_cause != 0`. -/
def State.faulted (s : State) : Bool := s.faultCause != 0

/-- `halted := fault_cause == 0 and u(pc) >= PROG_LEN`. -/
def State.halted (s : State) : Bool := s.faultCause == 0 && decide (s.program.length ≤ uval s.pc)

/-- `running := fault_cause == 0 and u(pc) < PROG_LEN`. -/
def State.running (s : State) : Bool := s.faultCause == 0 && decide (uval s.pc < s.program.length)

/-! ## Taking a fault -/

/-- The cause codes (R260). -/
def causeCode : FaultCause → BitVec 4
  | .illegalOpcode => 1#4
  | .illegalMode => 2#4
  | .illegalPair => 3#4
  | .truncatedInstruction => 4#4
  | .badRegister => 5#4
  | .stackOverflow => 6#4
  | .stackUnderflow => 7#4
  | .divideByZero => 8#4

/-- The cause of each rejection of the decoder (R88). -/
def rejectCause : Reject → FaultCause
  | .illegalOpcode => .illegalOpcode
  | .illegalMode => .illegalMode
  | .illegalPair => .illegalPair
  | .truncated => .truncatedInstruction
  | .badRegisterW1 => .badRegister
  | .badRegisterW2 => .badRegister

/-- Fault entry (R269), for `raise c(pc, w0)`: the record takes the cause, the `pc` of the faulting
instruction and its instruction word `w0`; nothing else changes, `pc` included. There is no vector
and no return (R272): the record is cleared by reset alone. -/
def State.takeFault (s : State) (c : FaultCause) (w0 : Word) : State :=
  { s with faultCause := causeCode c, faultPc := s.pc, faultWord := w0 }

end Sys2Proof.Machine
end

