-- ==== Sys2Proof/Machine/Operands.lean ====
section
/-! DEFINITION. The source value of each mode (30_encoding.md R86) and the one effective address (20_memory.md R56). -/

namespace Sys2Proof.Machine

/-- `Src(REGISTER, w) = x[Reg(w)]` (R86). -/
def srcRegister (r : Reg) (s : State) : Word := s.reg r

/-- `Src(IMMEDIATE, w) = w`: the 16-bit pattern as it is (R85, R86). -/
def srcImmediate (k : Word) : Word := k

/-- The effective address of a pointer operand: the register's 16 bits, read as unsigned where a
memory is indexed; the register is not modified (R56). -/
def effectiveAddress (p : Reg) (s : State) : Word := s.reg p

/-- `Src(INDIRECT, w) = MemRead(x[Reg(w)], 1)` (R86). -/
def srcIndirect (p : Reg) (s : State) : Word := s.ramRead (effectiveAddress p s)

end Sys2Proof.Machine
end

