-- ==== Sys2Proof/Machine/Arithmetic.lean ====
section
/-! DEFINITION. ADD, SUB, MUL, DIV, MOD, INC (41_arithmetic.md R140 to R147). -/

namespace Sys2Proof.Machine

/-- The shape common to the two-input register instructions (R140): both inputs are read before the
write, the result goes to `d`, `pc` advances by 3 and no flag is written. -/
def aluStep (op : Word → Word → Word) (d : Reg) (b : Word) (s : State) : Result :=
  .next ((s.setReg d (op (s.reg d) b)).advance 3)

/-- DIV and MOD: a zero source takes the fault `DivideByZero` before anything is written (R144,
R145, R268). -/
def divideStep (op : Word → Word → Word) (i : Instr) (d : Reg) (b : Word) (s : State) : Result :=
  if b = 0 then .next (s.takeFault .divideByZero i.word0) else aluStep op d b s

/-- `ADD d s` (R141). -/
def execAddReg (d r : Reg) (s : State) : Result := aluStep addOp d (srcRegister r s) s

/-- `ADD d #k` (R141). -/
def execAddImm (d : Reg) (k : Word) (s : State) : Result := aluStep addOp d (srcImmediate k) s

/-- `SUB d s` (R142). -/
def execSubReg (d r : Reg) (s : State) : Result := aluStep subOp d (srcRegister r s) s

/-- `SUB d #k` (R142). -/
def execSubImm (d : Reg) (k : Word) (s : State) : Result := aluStep subOp d (srcImmediate k) s

/-- `MUL d s` (R143). -/
def execMulReg (d r : Reg) (s : State) : Result := aluStep mulOp d (srcRegister r s) s

/-- `MUL d #k` (R143). -/
def execMulImm (d : Reg) (k : Word) (s : State) : Result := aluStep mulOp d (srcImmediate k) s

/-- `DIV d s` (R144). -/
def execDivReg (d r : Reg) (s : State) : Result :=
  divideStep divOp (Instr.divReg d r) d (srcRegister r s) s

/-- `DIV d #k` (R144). -/
def execDivImm (d : Reg) (k : Word) (s : State) : Result :=
  divideStep divOp (Instr.divImm d k) d (srcImmediate k) s

/-- `MOD d s` (R145). -/
def execModReg (d r : Reg) (s : State) : Result :=
  divideStep modOp (Instr.modReg d r) d (srcRegister r s) s

/-- `MOD d #k` (R145). -/
def execModImm (d : Reg) (k : Word) (s : State) : Result :=
  divideStep modOp (Instr.modImm d k) d (srcImmediate k) s

/-- `INC d` (R146). -/
def execInc (d : Reg) (s : State) : Result := .next ((s.setReg d (incOp (s.reg d))).advance 2)

end Sys2Proof.Machine
end

