-- ==== Sys2Proof/Machine/MoveLoad.lean ====
section
/-! DEFINITION. LD and MOV (40_move_load.md R120 to R123). -/

namespace Sys2Proof.Machine

/-- A register takes a value, and `pc` passes an instruction of three words; no flag is written. -/
def writeRegThen3 (d : Reg) (v : Word) (s : State) : Result := .next ((s.setReg d v).advance 3)

/-- A RAM word takes a value, and `pc` passes an instruction of three words. -/
def storeThen3 (p : Reg) (v : Word) (s : State) : Result :=
  .next ((s.ramWrite (effectiveAddress p s) v).advance 3)

/-- `LD d s` (R120). -/
def execLdReg (d r : Reg) (s : State) : Result := writeRegThen3 d (srcRegister r s) s

/-- `LD d #k` (R120). -/
def execLdImm (d : Reg) (k : Word) (s : State) : Result := writeRegThen3 d (srcImmediate k) s

/-- `MOV &p s` (R122). -/
def execMovStoreReg (p r : Reg) (s : State) : Result := storeThen3 p (srcRegister r s) s

/-- `MOV &p #k` (R123). -/
def execMovStoreImm (p : Reg) (k : Word) (s : State) : Result := storeThen3 p (srcImmediate k) s

/-- `MOV d &p` (R121). -/
def execMovLoad (d p : Reg) (s : State) : Result := writeRegThen3 d (srcIndirect p s) s

end Sys2Proof.Machine
end

