-- ==== Sys2Proof/Machine/Bitwise.lean ====
section
/-! DEFINITION. AND, OR, XOR, NOT, SHL, SHR (42_bitwise_shift.md R170 to R176), in the shape of 41_arithmetic.md R140. -/

namespace Sys2Proof.Machine

/-- `AND d s` (R170). -/
def execAndReg (d r : Reg) (s : State) : Result := aluStep andOp d (srcRegister r s) s

/-- `AND d #k` (R170). -/
def execAndImm (d : Reg) (k : Word) (s : State) : Result := aluStep andOp d (srcImmediate k) s

/-- `OR d s` (R171). -/
def execOrReg (d r : Reg) (s : State) : Result := aluStep orOp d (srcRegister r s) s

/-- `OR d #k` (R171). -/
def execOrImm (d : Reg) (k : Word) (s : State) : Result := aluStep orOp d (srcImmediate k) s

/-- `XOR d s` (R172). -/
def execXorReg (d r : Reg) (s : State) : Result := aluStep xorOp d (srcRegister r s) s

/-- `XOR d #k` (R172). -/
def execXorImm (d : Reg) (k : Word) (s : State) : Result := aluStep xorOp d (srcImmediate k) s

/-- `NOT d s` (R173: `pc` advances by 3 in both modes). -/
def execNotReg (d r : Reg) (s : State) : Result := writeRegThen3 d (notOp (srcRegister r s)) s

/-- `NOT d #k` (R173: `pc` advances by 3 in both modes). -/
def execNotImm (d : Reg) (k : Word) (s : State) : Result := writeRegThen3 d (notOp (srcImmediate k)) s

/-- `SHL d s` (R174). -/
def execShlReg (d r : Reg) (s : State) : Result := aluStep shlOp d (srcRegister r s) s

/-- `SHL d #k` (R174). -/
def execShlImm (d : Reg) (k : Word) (s : State) : Result := aluStep shlOp d (srcImmediate k) s

/-- `SHR d s` (R175). -/
def execShrReg (d r : Reg) (s : State) : Result := aluStep shrOp d (srcRegister r s) s

/-- `SHR d #k` (R175). -/
def execShrImm (d : Reg) (k : Word) (s : State) : Result := aluStep shrOp d (srcImmediate k) s

end Sys2Proof.Machine
end

