-- ==== Sys2Proof/Machine/Flags.lean ====
section
/-! DEFINITION. The two flags: what CMP sets them to (43_compare.md R200) and the six conditions that read them (44_control_transfer.md R212 to R217). -/

namespace Sys2Proof.Machine

/-- The exact difference of the two signed values, never wrapped (R200). -/
def cmpDiff (a b : Word) : Int := sval a - sval b

/-- `lt <- (diff < 0)` (R200). -/
def cmpLess (a b : Word) : Bool := decide (cmpDiff a b < 0)

/-- `gt <- (diff > 0)` (R200). -/
def cmpGreater (a b : Word) : Bool := decide (0 < cmpDiff a b)

/-- Equal: neither flag set (R212). -/
def condEq (lt gt : Bool) : Bool := !lt && !gt

/-- Not equal: either flag set (R213). -/
def condNe (lt gt : Bool) : Bool := lt || gt

/-- Greater (R214). -/
def condGt (_lt gt : Bool) : Bool := gt

/-- Greater or equal: not less (R215). -/
def condGe (lt _gt : Bool) : Bool := !lt

/-- Less (R216). -/
def condLt (lt _gt : Bool) : Bool := lt

/-- Less or equal: not greater (R217). -/
def condLe (_lt gt : Bool) : Bool := !gt

end Sys2Proof.Machine
end

