-- ==== Sys2Proof/Machine/Compare.lean ====
section
/-! DEFINITION. CMP (43_compare.md R200). -/

namespace Sys2Proof.Machine

/-- CMP writes both flags from the signed order of its inputs, and nothing else but `pc` (R200). -/
def compareStep (d : Reg) (b : Word) (s : State) : Result :=
  .next ((s.setFlags (cmpLess (s.reg d) b) (cmpGreater (s.reg d) b)).advance 3)

/-- `CMP d s` (R200). -/
def execCmpReg (d r : Reg) (s : State) : Result := compareStep d (srcRegister r s) s

/-- `CMP d #k` (R200). -/
def execCmpImm (d : Reg) (k : Word) (s : State) : Result := compareStep d (srcImmediate k) s

end Sys2Proof.Machine
end

