-- ==== Sys2Proof/Machine/Stack.lean ====
section
/-! DEFINITION. The checked push that PUSH and CALL share (45_stack.md R240, 44_control_transfer.md R218), and PUSH and POP. -/

namespace Sys2Proof.Machine

/-- Push `v`, then set `pc` by `go`; at `u(sp) = 65535` the fault `StackOverflow` is taken instead and
nothing is written (R218, R240, R266). -/
def pushStep (i : Instr) (v : Word) (go : State → State) (s : State) : Result :=
  if s.sp = Config.spMax then .next (s.takeFault .stackOverflow i.word0) else .next (go (s.push v))

/-- `PUSH s` (R240). -/
def execPushReg (r : Reg) (s : State) : Result :=
  pushStep (Instr.pushReg r) (srcRegister r s) (fun t => t.advance 2) s

/-- `PUSH #k` (R240). -/
def execPushImm (k : Word) (s : State) : Result :=
  pushStep (Instr.pushImm k) (srcImmediate k) (fun t => t.advance 2) s

/-- `POP d` (R241): at `sp = 0` the fault `StackUnderflow` is taken and nothing is written (R267). -/
def execPop (d : Reg) (s : State) : Result :=
  if s.sp = 0 then .next (s.takeFault .stackUnderflow (Instr.pop d).word0)
  else .next (((s.setReg d (s.stackRead s.sp)).setSp (s.sp - 1)).advance 2)

end Sys2Proof.Machine
end

