-- ==== Sys2Proof/Machine/Control.lean ====
section
/-! DEFINITION. JMP, the six conditional jumps, CALL and RET (44_control_transfer.md R210 to R221). -/

namespace Sys2Proof.Machine

/-- The shape common to the jumps (R210): taken, `pc` is the target word; not taken, it falls
through by 2. -/
def jumpStep (taken : Bool) (t : Word) (s : State) : Result :=
  .next (if taken then s.jumpTo t else s.advance 2)

/-- `JMP t` (R211). -/
def execJmp (t : Word) (s : State) : Result := jumpStep true t s

/-- `JEQ t` (R212). -/
def execJeq (t : Word) (s : State) : Result := jumpStep (condEq s.lt s.gt) t s

/-- `JNE t` (R213). -/
def execJne (t : Word) (s : State) : Result := jumpStep (condNe s.lt s.gt) t s

/-- `JGT t` (R214). -/
def execJgt (t : Word) (s : State) : Result := jumpStep (condGt s.lt s.gt) t s

/-- `JGE t` (R215). -/
def execJge (t : Word) (s : State) : Result := jumpStep (condGe s.lt s.gt) t s

/-- `JLT t` (R216). -/
def execJlt (t : Word) (s : State) : Result := jumpStep (condLt s.lt s.gt) t s

/-- `JLE t` (R217). -/
def execJle (t : Word) (s : State) : Result := jumpStep (condLe s.lt s.gt) t s

/-- `CALL t` (R218): the return address `trunc16(u(pc) + 2)` is pushed as PUSH pushes, then `pc` is
the target. -/
def execCall (t : Word) (s : State) : Result :=
  pushStep (Instr.call t) (trunc16 (uval s.pc + 2)) (fun u => u.jumpTo t) s

/-- RET under either value of `RET_POPS` (R219): not popping, `pc` takes the word at the top of the
stack and nothing else changes; popping, an empty stack faults and `sp` goes down by 1. -/
def returnStep (pops : Bool) (s : State) : Result :=
  if pops then
    if s.sp = 0 then .next (s.takeFault .stackUnderflow Instr.ret.word0)
    else .next ((s.jumpTo (s.stackRead s.sp)).setSp (s.sp - 1))
  else .next (s.jumpTo (s.stackRead s.sp))

/-- `RET` (R219), with this hardware's `RET_POPS` (R9). -/
def execRet (s : State) : Result := returnStep Config.retPops s

end Sys2Proof.Machine
end

