-- ==== Sys2Proof/Machine/Dispatch.lean ====
section
/-! DEFINITION. One arm per constructor of Instr: a direct call of its meaning. -/

namespace Sys2Proof.Machine

def exec (i : Instr) (s : State) : Host.Outcome State Fault Refusal :=
  match i with
  | .ldReg d r => Sys2Proof.Machine.execLdReg d r s
  | .ldImm d k => Sys2Proof.Machine.execLdImm d k s
  | .movStoreReg p r => Sys2Proof.Machine.execMovStoreReg p r s
  | .movStoreImm p k => Sys2Proof.Machine.execMovStoreImm p k s
  | .movLoad d p => Sys2Proof.Machine.execMovLoad d p s
  | .addReg d r => Sys2Proof.Machine.execAddReg d r s
  | .addImm d k => Sys2Proof.Machine.execAddImm d k s
  | .subReg d r => Sys2Proof.Machine.execSubReg d r s
  | .subImm d k => Sys2Proof.Machine.execSubImm d k s
  | .mulReg d r => Sys2Proof.Machine.execMulReg d r s
  | .mulImm d k => Sys2Proof.Machine.execMulImm d k s
  | .divReg d r => Sys2Proof.Machine.execDivReg d r s
  | .divImm d k => Sys2Proof.Machine.execDivImm d k s
  | .modReg d r => Sys2Proof.Machine.execModReg d r s
  | .modImm d k => Sys2Proof.Machine.execModImm d k s
  | .inc d => Sys2Proof.Machine.execInc d s
  | .andReg d r => Sys2Proof.Machine.execAndReg d r s
  | .andImm d k => Sys2Proof.Machine.execAndImm d k s
  | .orReg d r => Sys2Proof.Machine.execOrReg d r s
  | .orImm d k => Sys2Proof.Machine.execOrImm d k s
  | .xorReg d r => Sys2Proof.Machine.execXorReg d r s
  | .xorImm d k => Sys2Proof.Machine.execXorImm d k s
  | .notReg d r => Sys2Proof.Machine.execNotReg d r s
  | .notImm d k => Sys2Proof.Machine.execNotImm d k s
  | .shlReg d r => Sys2Proof.Machine.execShlReg d r s
  | .shlImm d k => Sys2Proof.Machine.execShlImm d k s
  | .shrReg d r => Sys2Proof.Machine.execShrReg d r s
  | .shrImm d k => Sys2Proof.Machine.execShrImm d k s
  | .jmp t => Sys2Proof.Machine.execJmp t s
  | .jeq t => Sys2Proof.Machine.execJeq t s
  | .jne t => Sys2Proof.Machine.execJne t s
  | .jgt t => Sys2Proof.Machine.execJgt t s
  | .jge t => Sys2Proof.Machine.execJge t s
  | .jlt t => Sys2Proof.Machine.execJlt t s
  | .jle t => Sys2Proof.Machine.execJle t s
  | .call t => Sys2Proof.Machine.execCall t s
  | .ret => Sys2Proof.Machine.execRet s
  | .cmpReg d r => Sys2Proof.Machine.execCmpReg d r s
  | .cmpImm d k => Sys2Proof.Machine.execCmpImm d k s
  | .pushReg r => Sys2Proof.Machine.execPushReg r s
  | .pushImm k => Sys2Proof.Machine.execPushImm k s
  | .pop d => Sys2Proof.Machine.execPop d s

end Sys2Proof.Machine
end

