-- ==== Sys2Proof/Machine/Fetch.lean ====
section
/-! DEFINITION. Instruction fetch and decode in a state (20_memory.md R59, 30_encoding.md R88), and where a test's instruction is placed. -/

namespace Sys2Proof.Machine

/-- The words of the Program from `pc` on: the only words a fetch reads (R59). -/
def State.fetchWords (s : State) : List Word := s.program.drop (uval s.pc)

/-- What fetching and decoding at `pc` gives. -/
inductive Fetched where
  /-- `pc` is at or beyond `PROG_LEN`: there is no word to fetch. -/
  | none
  /-- The words at `pc` are the instruction `i`. -/
  | instr (i : Instr)
  /-- The decoder rejects the words at `pc`, of which the first is `w0`. -/
  | bad (r : Reject) (w0 : Word)
deriving DecidableEq, Repr

/-- Fetch and decode (R88, steps 1 to 7). -/
def State.fetchDecode (s : State) : Fetched :=
  match s.fetchWords with
  | [] => .none
  | w0 :: rest =>
    match decode w0 rest with
    | .ok i => .instr i
    | .bad r => .bad r w0

/-- The Program `p` with the words `ws` standing at offset `at_`, lengthened by zero words where it
is too short, and cut at the greatest `PROG_LEN`. -/
def placeWords (p : List Word) (at_ : Nat) (ws : List Word) : List Word :=
  (p.take at_ ++ List.replicate (at_ - p.length) 0 ++ ws ++ p.drop (at_ + ws.length)).take
    Config.progLenMax

end Sys2Proof.Machine
end

