-- ==== Sys2Proof/Machine/Step.lean ====
section
/-! DEFINITION. One step of the machine: one whole instruction (00_scope.md R8, 10_state.md R31, 30_encoding.md R88). -/

namespace Sys2Proof.Machine

/-- One step. It is taken if and only if `running` holds (R31): a faulted or halted machine answers
with that name. A word the decoder rejects, or an instruction that raises a fault, ends the step with
the fault record written (R88, R269). A Program of more than 65535 words is outside the spec (R9). -/
def step (s : State) : Host.Outcome State Fault Refusal :=
  if programWellFormed s.program then
    if s.faulted then .fault .faulted
    else
      match s.fetchDecode with
      | .none => .fault .halted
      | .instr i => exec i s
      | .bad r w0 => .next (s.takeFault (rejectCause r) w0)
  else .refused .programTooLong

/-- The state with an opcode-table row's words placed in the Program at `pc`, as a loader places them
before the run (R302), so that the next step fetches and runs them. The machine must be running for
that, so the fault record is cleared, as reset clears it. Nothing else changes. (Three words fit for
every `pc` up to 65532.) -/
def State.withFetchWord (s : State) (nbits w : Nat) : State :=
  { s with
    program := placeWords s.program (uval s.pc) (tableWords nbits w)
    faultCause := 0
    faultPc := 0
    faultWord := 0 }

end Sys2Proof.Machine
end

