-- ==== Sys2Proof/Machine/Boot.lean ====
section
/-! DEFINITION. What the host does to the machine outside a step: reset, boot, and reading a terminal state (70_reset_and_hazards.md R300 to R303, 10_state.md R37). -/

namespace Sys2Proof.Machine

/-- Asserting `reset` in any state (R300, R301): every piece of state of R20 becomes zero; the program
store is not part of it and keeps its words. -/
def State.assertReset (s : State) : State := { State.reset with program := s.program }

/-- The boot sequence (R302): place the Program, then reset. A Program of more than 65535 words is
outside the spec, and there is no machine for it. -/
def boot (p : List Word) : Option State :=
  if programWellFormed p then some { State.reset with program := p } else none

/-- What the host may read (R37, R303): the whole state once `halted` or `faulted` holds, nothing while
`running` holds. -/
def State.observe (s : State) : Option State := if s.running then none else some s

end Sys2Proof.Machine
end

