-- ==== Sys2Proof/Safety.lean ====
section
/-! DEFINITION. What counts as a good state, and the words the statements are written in: frames, a register result, the state a fault leaves, and the opcode table of 30_encoding.md R84, R85, R87 as numbers. -/

namespace Sys2Proof.Machine

/-! ## The invariant -/

/-- What holds at reset and after every step. -/
structure Inv (s : State) : Prop where
  /-- The two memories are in canonical form. -/
  ramWf : s.ram.wf
  stackWf : s.stack.wf
  /-- The two flags are never both true (R29). -/
  flagsExclusive : ¬ (s.lt = true ∧ s.gt = true)
  /-- The Program has at most 65535 words (R9). -/
  programFits : s.program.length ≤ 65535
  /-- No instruction writes `STACK[0]` (R27, R54). -/
  slotZero : s.stackRead 0 = 0
  /-- The cause is 0 or one of the eight codes (R30, R260). -/
  causeRange : s.faultCause.toNat ≤ 8
  /-- No fault since reset: the record holds its reset values (R30, R36). -/
  recordClear : s.faultCause = 0 → s.faultPc = 0 ∧ s.faultWord = 0
  /-- A fault: `pc` stays at the faulting instruction, and the record names it and its first word
  (R269). -/
  recordSet : s.faultCause ≠ 0 → s.faultPc = s.pc ∧ s.program[uval s.pc]? = some s.faultWord

/-- Everything R20 lists, but the Program, is zero (R36). -/
def AllZero (s : State) : Prop :=
  (∀ r, s.reg r = 0) ∧ s.pc = 0 ∧ s.sp = 0 ∧ s.lt = false ∧ s.gt = false ∧
    s.faultCause = 0 ∧ s.faultPc = 0 ∧ s.faultWord = 0 ∧
    (∀ a, s.ramRead a = 0) ∧ (∀ a, s.stackRead a = 0)

/-- The machine is running and the words of the Program from `pc` on are `w0` and then `rest` (R31,
R59, R88). -/
def ReadyAt (s : State) (w0 : Word) (rest : List Word) : Prop :=
  s.program.length ≤ 65535 ∧ s.faultCause = 0 ∧ s.program.drop (uval s.pc) = w0 :: rest

/-! ## Frames and results -/

/-- From `s` to `t` no register changes but those of `regW`, no RAM word but those of `ramW`, no STACK
word but those of `stackW`; the fault record and the Program do not change. The program counter, the
stack pointer and the flags are said apart. -/
def Frame (s t : State) (regW : Reg → Prop) (ramW stackW : Word → Prop) : Prop :=
  (∀ r, ¬ regW r → t.reg r = s.reg r) ∧ (∀ a, ¬ ramW a → t.ramRead a = s.ramRead a) ∧
    (∀ a, ¬ stackW a → t.stackRead a = s.stackRead a) ∧ t.faultCause = s.faultCause ∧
    t.faultPc = s.faultPc ∧ t.faultWord = s.faultWord ∧ t.program = s.program

/-- Neither flag changes. -/
def FlagsKept (s t : State) : Prop := t.lt = s.lt ∧ t.gt = s.gt

/-- `i` completes in `s`: register `d` takes `v`, `pc` advances by `len`, and nothing else changes. -/
def RegWritten (i : Instr) (s : State) (d : Reg) (v : Word) (len : Nat) : Prop :=
  ∃ t, exec i s = .next t ∧ t.reg d = v ∧ t.pc = s.pc + BitVec.ofNat 16 len ∧ t.sp = s.sp ∧
    FlagsKept s t ∧ Frame s t (fun r => r = d) (fun _ => False) (fun _ => False)

/-- `i` completes in `s`: the RAM word at the address its meaning computes from pointer register `p`,
which is the register's value, takes `v`, `pc` advances by 3, and nothing else changes. -/
def RamWritten (i : Instr) (s : State) (p : Reg) (v : Word) : Prop :=
  ∃ t, exec i s = .next t ∧ effectiveAddress p s = s.reg p ∧
    t.ramRead (effectiveAddress p s) = v ∧ t.pc = s.pc + 3 ∧ t.sp = s.sp ∧ FlagsKept s t ∧
    Frame s t (fun _ => False) (fun a => a = effectiveAddress p s) (fun _ => False)

/-- `i` completes in `s`: `v` is pushed at `STACK[sp + 1]`, `sp` goes up by 1 without wrapping, `pc`
becomes `target`, and nothing else changes. -/
def Pushed (i : Instr) (s : State) (v target : Word) : Prop :=
  ∃ t, exec i s = .next t ∧ t.sp = s.sp + 1 ∧ uval t.sp = uval s.sp + 1 ∧
    t.stackRead (s.sp + 1) = v ∧ t.pc = target ∧ FlagsKept s t ∧
    Frame s t (fun _ => False) (fun _ => False) (fun a => a = s.sp + 1)

/-- `i` completes in `s`: the flags take the signed order of `a` and `b`, `pc` advances by 3, and
nothing else changes. -/
def Compared (i : Instr) (s : State) (a b : Int) : Prop :=
  ∃ t, exec i s = .next t ∧ (t.gt = true ↔ a - b > 0) ∧ (t.lt = true ↔ a - b < 0) ∧
    t.pc = s.pc + 3 ∧ t.sp = s.sp ∧
    Frame s t (fun _ => False) (fun _ => False) (fun _ => False)

/-- The state after fault entry (R269): the record is written, nothing else changes. -/
def afterFault (s : State) (code : BitVec 4) (w0 : Word) : State :=
  { s with faultCause := code, faultPc := s.pc, faultWord := w0 }

/-- Where the six conditional jumps go from `t`, when they read the flags as the order of `a` and `b`
(R201). -/
def JumpsFollow (t : State) (a b : Int) (x : Word) : Prop :=
  exec (.jeq x) t = .next { t with pc := if a = b then x else t.pc + 2 } ∧
  exec (.jne x) t = .next { t with pc := if a ≠ b then x else t.pc + 2 } ∧
  exec (.jgt x) t = .next { t with pc := if b < a then x else t.pc + 2 } ∧
  exec (.jge x) t = .next { t with pc := if b ≤ a then x else t.pc + 2 } ∧
  exec (.jlt x) t = .next { t with pc := if a < b then x else t.pc + 2 } ∧
  exec (.jle x) t = .next { t with pc := if a ≤ b then x else t.pc + 2 }

/-- With `l` and `g` in the flags, jump `i` goes to `x` if `taken`, and else falls through by 2; nothing
but `pc` changes. `taken` is the condition as a function of those two values (R28, R212 to R217). -/
def JumpReads (i : Instr) (s : State) (l g : Bool) (x : Word) (taken : Prop) [Decidable taken] :
    Prop :=
  exec i { s with lt := l, gt := g } =
    .next { s with lt := l, gt := g, pc := if taken then x else s.pc + 2 }

/-! ## The opcode table as numbers -/

/-- The 42 legal instruction words (R87, column `w0`). -/
def legalWords : List Word :=
  [0x0001, 0x0002, 0x0101, 0x0102, 0x0103, 0x0201, 0x0202, 0x0301, 0x0302, 0x0401, 0x0402] ++
  [0x0501, 0x0502, 0x0601, 0x0602, 0x0700, 0x0801, 0x0802, 0x0901, 0x0902, 0x0A01, 0x0A02] ++
  [0x0B01, 0x0B02, 0x0C01, 0x0C02, 0x0D01, 0x0D02, 0x0E00, 0x0F00, 0x1000, 0x1100, 0x1200] ++
  [0x1300, 0x1400, 0x1500, 0x1600, 0x1701, 0x1702, 0x1801, 0x1802, 0x1900]

/-- The legal words of two-word instructions: format F1 (R84). -/
def twoWordWords : List Word :=
  [0x0700, 0x0E00, 0x0F00, 0x1000, 0x1100, 0x1200, 0x1300, 0x1400, 0x1500, 0x1801, 0x1802, 0x1900]

/-- `L` of a legal instruction word: 1 for RET, 2 for format F1, 3 for the rest, format F2 (R84, R90). -/
def lengthOf (w0 : Word) : Nat :=
  if w0 = 0x1600 then 1 else if w0 ∈ twoWordWords then 2 else 3

/-- `w1` is a literal or a target, or there is no `w1`: the legal words whose `w1` is no register
(R87). -/
def plainW1 : List Word :=
  [0x0E00, 0x0F00, 0x1000, 0x1100, 0x1200, 0x1300, 0x1400, 0x1500, 0x1600, 0x1802]

/-- `w2` names a register: mode REGISTER of format F2, and the load form of MOV (R87). -/
def registerW2 : List Word :=
  [0x0001, 0x0101, 0x0103, 0x0201, 0x0301, 0x0401, 0x0501, 0x0601, 0x0801, 0x0901, 0x0A01] ++
  [0x0B01, 0x0C01, 0x0D01, 0x1701]

/-- The operand words `rest`, of a legal word `w0`, hold a register ordinal above 7 (R265). -/
def HasBadRegister (w0 : Word) (rest : List Word) : Prop :=
  (w0 ∉ plainW1 ∧ ∃ w1, rest[0]? = some w1 ∧ 7 < uval w1) ∨
  (w0 ∈ registerW2 ∧ ∃ w2, rest[1]? = some w2 ∧ 7 < uval w2)

/-- The opcodes that write a register (R20, R23); MOV only in mode INDIRECT. -/
def registerWriters : List Opcode :=
  [.LD, .MOV, .ADD, .SUB, .MUL, .DIV, .MOD, .INC, .AND, .OR, .XOR, .NOT, .SHL, .SHR, .POP]

/-- The six conditional jumps. -/
def conditionalJumps : List Opcode := [.JEQ, .JNE, .JGT, .JGE, .JLT, .JLE]

/-- The control transfers: every other opcode sets `pc` to its sequential successor (R25). -/
def transfers : List Opcode := [.JMP, .JEQ, .JNE, .JGT, .JGE, .JLT, .JLE, .CALL, .RET]

end Sys2Proof.Machine
end

