-- ==== Sys2Proof/Certificates/Slice0/Obligations.lean ====
section
/-! DEFINITION. The statements for the provers, each after the numbered rules of spec/ that it formalises. A docstring names the decisions D<n> of spec/92_eei_decisions.md, which the spec marks as its own, and the log entries of the model's own choices, that the statement rests on. -/

open Sys2Proof Sys2Proof.Machine

/-- For every instruction, every operand at every value its encoding admits, and any words after it
in the Program, decode of encode is that instruction, and encode has L words. The ordinals are
the spec's decisions D5, D6, D8. (30_encoding.md R81, R87, R88, R100) -/
def Obligations.DecodeOfEncodeIsIdentity : Prop :=
  ∀ (i : Instr) (rest : List Word), ∃ w0 ops, encode i = w0 :: ops ∧ (encode i).length = i.length ∧
    decode w0 (ops ++ rest) = .ok i

/-- If the decoder reads instruction i from w0 and the words after it, then those words begin with
encode i: no bit of an accepted instruction is dropped or ignored. Rests on D18 and D19, the
spec's own decisions. (30_encoding.md R80, R81, R85, R88) -/
def Obligations.EncodeOfDecodeIsIdentity : Prop :=
  ∀ (w0 : Word) (rest : List Word) (i : Instr), decode w0 rest = .ok i →
    (w0 :: rest).take i.length = encode i

/-- There are 42 legal pairs; for each of them the Codec reads back from the packed word the pair
that was packed; the ordinals of two different opcodes, or of two different modes, differ. (R92) -/
def Obligations.CodecRoundTripOnLegalPairs : Prop :=
  ((Opcode.all.flatMap fun op => Mode.all.map fun m => operandKinds op m).filter
      Option.isSome).length = 42 ∧
  (∀ op m, operandKinds op m ≠ none → decodePair (codec op m) = .pair op m) ∧
  (∀ a b : Opcode, a.ordinal = b.ordinal → a = b) ∧
  (∀ a b : Mode, a.ordinal = b.ordinal → a = b)

/-- For every opcode, mode and operand words: the packed word followed by those operand words, and
by anything, decodes to an instruction of that length if and only if the pair is legal, has that
number of operand words, and each register operand is at most 7. Rests on D8, D18, D19.
(30_encoding.md R84, R85, R87, R88) -/
def Obligations.DecoderAcceptsExactlyWellFormedWords : Prop :=
  ∀ (op : Opcode) (m : Mode) (ops rest : List Word),
    (∃ i, decode (codec op m) (ops ++ rest) = .ok i ∧ i.length = 1 + ops.length) ↔
      (RawInstr.mk op m ops).wellFormed = true

/-- Each instruction encodes to its w0 of the table of legal pairs followed by its operands as whole
words, in order; the register ordinals are A = 0 to H = 7. The numbers are the spec's decisions
D4, D5, D6. (30_encoding.md R82, R83, R87, R100, 10_state.md R22) -/
def Obligations.EncodingFollowsTheOpcodeTable : Prop :=
  ∀ (d s : Reg) (k : Word),
    [Reg.A, .B, .C, .D, .E, .F, .G, .H].map Reg.ordinal = [0, 1, 2, 3, 4, 5, 6, 7] ∧
    encode (.ldReg d s) = [0x0001, d.ordinal, s.ordinal] ∧
    encode (.ldImm d k) = [0x0002, d.ordinal, k] ∧
    encode (.movStoreReg d s) = [0x0101, d.ordinal, s.ordinal] ∧
    encode (.movStoreImm d k) = [0x0102, d.ordinal, k] ∧
    encode (.movLoad d s) = [0x0103, d.ordinal, s.ordinal] ∧
    encode (.addReg d s) = [0x0201, d.ordinal, s.ordinal] ∧
    encode (.addImm d k) = [0x0202, d.ordinal, k] ∧
    encode (.subReg d s) = [0x0301, d.ordinal, s.ordinal] ∧
    encode (.subImm d k) = [0x0302, d.ordinal, k] ∧
    encode (.mulReg d s) = [0x0401, d.ordinal, s.ordinal] ∧
    encode (.mulImm d k) = [0x0402, d.ordinal, k] ∧
    encode (.divReg d s) = [0x0501, d.ordinal, s.ordinal] ∧
    encode (.divImm d k) = [0x0502, d.ordinal, k] ∧
    encode (.modReg d s) = [0x0601, d.ordinal, s.ordinal] ∧
    encode (.modImm d k) = [0x0602, d.ordinal, k] ∧
    encode (.andReg d s) = [0x0801, d.ordinal, s.ordinal] ∧
    encode (.andImm d k) = [0x0802, d.ordinal, k] ∧
    encode (.orReg d s) = [0x0901, d.ordinal, s.ordinal] ∧
    encode (.orImm d k) = [0x0902, d.ordinal, k] ∧
    encode (.xorReg d s) = [0x0A01, d.ordinal, s.ordinal] ∧
    encode (.xorImm d k) = [0x0A02, d.ordinal, k] ∧
    encode (.notReg d s) = [0x0B01, d.ordinal, s.ordinal] ∧
    encode (.notImm d k) = [0x0B02, d.ordinal, k] ∧
    encode (.shlReg d s) = [0x0C01, d.ordinal, s.ordinal] ∧
    encode (.shlImm d k) = [0x0C02, d.ordinal, k] ∧
    encode (.shrReg d s) = [0x0D01, d.ordinal, s.ordinal] ∧
    encode (.shrImm d k) = [0x0D02, d.ordinal, k] ∧
    encode (.cmpReg d s) = [0x1701, d.ordinal, s.ordinal] ∧
    encode (.cmpImm d k) = [0x1702, d.ordinal, k] ∧
    encode (.inc d) = [0x0700, d.ordinal] ∧
    encode (.jmp k) = [0x0E00, k] ∧
    encode (.jeq k) = [0x0F00, k] ∧
    encode (.jne k) = [0x1000, k] ∧
    encode (.jgt k) = [0x1100, k] ∧
    encode (.jge k) = [0x1200, k] ∧
    encode (.jlt k) = [0x1300, k] ∧
    encode (.jle k) = [0x1400, k] ∧
    encode (.call k) = [0x1500, k] ∧
    encode .ret = [0x1600] ∧
    encode (.pushReg s) = [0x1801, s.ordinal] ∧
    encode (.pushImm k) = [0x1802, k] ∧
    encode (.pop d) = [0x1900, d.ordinal]

/-- Ten of the spec's example encodings, one or more for each family, decode to the instruction the
example names. The ordinals are the spec's decisions D4 to D6. (40_move_load.md R120, R121,
R123, 41_arithmetic.md R145, R146, 42_bitwise_shift.md R173, 43_compare.md R200,
44_control_transfer.md R218, R219, 45_stack.md R240, R241) -/
def Obligations.SpecExampleWordsDecode : Prop :=
  decode 0x0002 [0x0001, 0x0010] = .ok (.ldImm .B 0x0010) ∧
  decode 0x0103 [0x0004, 0x0003] = .ok (.movLoad .E .D) ∧
  decode 0x0102 [0x0002, 0xBEEF] = .ok (.movStoreImm .C 0xBEEF) ∧
  decode 0x0602 [0x0000, 0x0004] = .ok (.modImm .A 4) ∧
  decode 0x0700 [0x0001] = .ok (.inc .B) ∧
  decode 0x0B01 [0x0001, 0x0000] = .ok (.notReg .B .A) ∧
  decode 0x1701 [0x0000, 0x0001] = .ok (.cmpReg .A .B) ∧
  decode 0x1500 [0x0028] = .ok (.call 40) ∧
  decode 0x1600 [] = .ok .ret ∧
  decode 0x1900 [0x0002] = .ok (.pop .C)

/-- In a running state whose word at pc is w0: if the high byte is 26 or more, whatever the low
byte, the step records cause 1, pc and w0 and changes nothing else; and a step that records
cause 1 met such a word. The code and what the fault leaves are the spec's decisions D18 and D23
(D23: log entry 10). (60_exceptions.md R260, R261, R269) -/
def Obligations.UndefinedOpcodeFaults : Prop :=
  ∀ (s : State) (w0 : Word) (rest : List Word), ReadyAt s w0 rest →
    (26 ≤ uval w0 / 256 → step s = .next (afterFault s 1 w0)) ∧
    (∀ t, step s = .next t → t.faultCause = 1 → 26 ≤ uval w0 / 256)

/-- In a running state whose word at pc is w0: if the high byte is at most 25 and the low byte at
least 4, for every opcode, the step records cause 2, pc and w0 and changes nothing else; and a
step that records cause 2 met such a word. The code and what the fault leaves are the spec's
decisions D18 and D23 (D23: log entry 10). (60_exceptions.md R260, R262, R269) -/
def Obligations.UndefinedModeFaults : Prop :=
  ∀ (s : State) (w0 : Word) (rest : List Word), ReadyAt s w0 rest →
    (uval w0 / 256 ≤ 25 → 4 ≤ uval w0 % 256 → step s = .next (afterFault s 2 w0)) ∧
    (∀ t, step s = .next t → t.faultCause = 2 → uval w0 / 256 ≤ 25 ∧ 4 ≤ uval w0 % 256)

/-- In a running state: if opcode and mode of the word at pc are each defined but the word is not
one of the 42 legal ones, the step records cause 3, pc and the word and changes nothing else;
and a step that records cause 3 met such a word. Rests on D18 and, for what the fault leaves,
D23, the spec's own decisions (D23: log entry 10). (60_exceptions.md R260, R263, R269,
30_encoding.md R87, R89) -/
def Obligations.IncompatiblePairFaults : Prop :=
  ∀ (s : State) (w0 : Word) (rest : List Word), ReadyAt s w0 rest →
    (uval w0 / 256 ≤ 25 → uval w0 % 256 ≤ 3 → w0 ∉ legalWords →
      step s = .next (afterFault s 3 w0)) ∧
    (∀ t, step s = .next t → t.faultCause = 3 →
      uval w0 / 256 ≤ 25 ∧ uval w0 % 256 ≤ 3 ∧ w0 ∉ legalWords)

/-- In a running state: if the word at pc is legal and u(pc) + L exceeds PROG_LEN, the step records
cause 4, pc and the word and changes nothing else; and a step that records cause 4 met that.
Rests on D20, for the code on D18, and for what the fault leaves on D23, the spec's own
decisions (D23: log entry 10). (60_exceptions.md R260, R264, R269, 30_encoding.md R84, R90, R91) -/
def Obligations.TruncatedInstructionFaults : Prop :=
  ∀ (s : State) (w0 : Word) (rest : List Word), ReadyAt s w0 rest →
    (w0 ∈ legalWords → s.program.length < uval s.pc + lengthOf w0 →
      step s = .next (afterFault s 4 w0)) ∧
    (∀ t, step s = .next t → t.faultCause = 4 →
      w0 ∈ legalWords ∧ s.program.length < uval s.pc + lengthOf w0)

/-- In a running state whose word at pc is legal and not truncated: if w1 or w2 must name a register
and is above 7, the step records cause 5 before any execution fault, with pc and the word, and
changes nothing else; and a step that records cause 5 met that. Rests on D19, D18 and, for what
the fault leaves, D23, the spec's own decisions (D23: log entry 10). (60_exceptions.md R260,
R265, R269, R270, 30_encoding.md R85, R87, R88) -/
def Obligations.RegisterOperandAboveSevenFaults : Prop :=
  ∀ (s : State) (w0 : Word) (rest : List Word), ReadyAt s w0 rest →
    (w0 ∈ legalWords → uval s.pc + lengthOf w0 ≤ s.program.length → HasBadRegister w0 rest →
      step s = .next (afterFault s 5 w0)) ∧
    (∀ t, step s = .next t → t.faultCause = 5 →
      w0 ∈ legalWords ∧ uval s.pc + lengthOf w0 ≤ s.program.length ∧ HasBadRegister w0 rest)

/-- In a running state whose words at pc decode to i, the step is exec of i in that same state;
nothing is added around exec (each meaning sets pc itself). (30_encoding.md R88, 00_scope.md R8) -/
def Obligations.StepRunsDecodedInstruction : Prop :=
  ∀ (s : State) (w0 : Word) (rest : List Word) (i : Instr), ReadyAt s w0 rest →
    decode w0 rest = .ok i → step s = exec i s

/-- In a running state whose Program holds, from pc on, the words of i and then anything, the step
is exec of i in that state, for every instruction i. (30_encoding.md R81, R88, R100,
20_memory.md R59) -/
def Obligations.StepRunsEncodedInstruction : Prop :=
  ∀ (s : State) (i : Instr) (rest : List Word), s.program.length ≤ 65535 → s.faultCause = 0 →
    s.program.drop (uval s.pc) = encode i ++ rest → step s = exec i s

/-- For a Program of at most 65535 words: step answers a next state iff fault_cause = 0 and u(pc) <
PROG_LEN; it stops with halted iff fault_cause = 0 and u(pc) >= PROG_LEN, with faulted iff
fault_cause is not 0. A longer Program is refused by name. The answer in a terminal state and
the refusal are the model's (log entries 3 and 5). (10_state.md R31, 30_encoding.md R89,
00_scope.md R9) -/
def Obligations.StepTakenExactlyWhileRunning : Prop :=
  ∀ s : State,
    (s.program.length ≤ 65535 →
      ((∃ t, step s = .next t) ↔ s.faultCause = 0 ∧ uval s.pc < s.program.length) ∧
      (step s = .fault .halted ↔ s.faultCause = 0 ∧ s.program.length ≤ uval s.pc) ∧
      (step s = .fault .faulted ↔ s.faultCause ≠ 0)) ∧
    (65535 < s.program.length → step s = .refused .programTooLong)

/-- For every state with u(pc) at most 65532: if the decoder reads i from a table word, the step
after withFetchWord of that word is exec of i in that state. How a Program is placed is the
model's (log entry 2). (30_encoding.md R88, 70_reset_and_hazards.md R302) -/
def Obligations.PlacedTableWordIsTheNextInstruction : Prop :=
  ∀ (s : State) (nbits w : Nat) (i : Instr), uval s.pc ≤ 65532 →
    decodeTableWord nbits w = some i →
    step (s.withFetchWord nbits w) = exec i (s.withFetchWord nbits w)

/-- Asserting reset in any state makes every register, pc, sp, both flags, the fault record and
every word of RAM and STACK zero, and keeps the Program; the machine's reset state is that of an
empty Program. The values are the spec's decisions D13, D21, D22; the empty Program is the
model's (log entry 2). (10_state.md R36, 70_reset_and_hazards.md R300, R301) -/
def Obligations.ResetClearsEverything : Prop :=
  ∀ s : State, AllZero s.assertReset ∧ s.assertReset.program = s.program ∧
    AllZero State.reset ∧ State.reset.program = []

/-- For every Program of at most 65535 words, boot gives a state with that Program and everything
else zero, which satisfies the invariant and whose first fetch is at offset 0; a longer Program
has no boot. Rests on D21, D22, D29. R302 says only that a longer Program is outside the spec.
That boot declines it is the model's choice (log entry 5). (70_reset_and_hazards.md R300, R302,
R305, 00_scope.md R9) -/
def Obligations.BootPlacesTheProgramAndZeroesTheRest : Prop :=
  ∀ p : List Word,
    (p.length ≤ 65535 → ∃ t, boot p = some t ∧ t.program = p ∧ AllZero t ∧ Inv t) ∧
    (65535 < p.length → boot p = none)

/-- For a Program of at most 65535 words: the host observes nothing iff a step can be taken, and
whatever it observes is the whole state. Rests on D29, the spec's own decision. (10_state.md
R37, 70_reset_and_hazards.md R303) -/
def Obligations.HostReadsExactlyTheTerminalStates : Prop :=
  ∀ s : State, s.program.length ≤ 65535 →
    (s.observe = none ↔ ∃ t, step s = .next t) ∧ (∀ o, s.observe = some o → o = s)

/-- The reset state satisfies the invariant. The reset values are the spec's decisions D13, D21,
D22. (10_state.md R36) -/
def Obligations.InvariantHoldsAtReset : Prop :=
  Inv State.reset

/-- From every state that satisfies it, a step gives a state in which: both memories are in
canonical form, the flags are not both true, the Program fits, STACK[0] is 0, the cause is 0 to
8, the fault record is clear if there is no fault, and otherwise names pc and the word there.
Rests on D13, D18, D22, D23. The canonical form is the model's (log entry 4). (10_state.md R27,
R29, R30, R36, 60_exceptions.md R269, R272, 20_memory.md R54) -/
def Obligations.StepKeepsInvariant : Prop :=
  ∀ s t : State, Inv s → step s = .next t → Inv t

/-- A step from a running state that ends with a cause other than 0 leaves every register, pc, sp,
both flags, RAM, STACK and the Program as they were; the cause is 1 to 8, fault_pc is the old pc
and fault_word the word of the Program there. Rests on D18 and D23, the spec's own decisions
(D23: log entry 10). (60_exceptions.md R260, R269, R270, 10_state.md R30) -/
def Obligations.FaultingStepWritesOnlyTheRecord : Prop :=
  ∀ s t : State, s.faultCause = 0 → step s = .next t → t.faultCause ≠ 0 →
    t.faultCause.toNat ≤ 8 ∧
    ∃ w, s.program[uval s.pc]? = some w ∧ t = afterFault s t.faultCause w

/-- In a running state with the words of i at pc: a faulting step leaves pc; otherwise JMP, CALL and
a taken conditional jump set pc to the target and RET to the word at the top of the stack, a
conditional jump not taken adds 2, and every other instruction, NOT in both modes included, adds
its length, which is that of the table, without wrapping. A word that does not decode faults and
leaves pc. (R25) -/
def Obligations.StepMovesPcByLengthOrToTarget : Prop :=
  (∀ (s t : State) (i : Instr) (rest : List Word), s.program.length ≤ 65535 → s.faultCause = 0 →
    s.program.drop (uval s.pc) = encode i ++ rest → step s = .next t →
    i.length = lengthOf i.word0 ∧
    (t.faultCause ≠ 0 → t.pc = s.pc) ∧
    (t.faultCause = 0 →
      (i.raw.op ∉ transfers → uval t.pc = uval s.pc + i.length) ∧
      (∀ x, i = .jmp x ∨ i = .call x → t.pc = x) ∧
      (i = .ret → t.pc = s.stackRead s.sp) ∧
      (∀ x, i = .jeq x → t.pc = if s.lt = false ∧ s.gt = false then x else s.pc + 2) ∧
      (∀ x, i = .jne x → t.pc = if s.lt = true ∨ s.gt = true then x else s.pc + 2) ∧
      (∀ x, i = .jgt x → t.pc = if s.gt = true then x else s.pc + 2) ∧
      (∀ x, i = .jge x → t.pc = if s.lt = false then x else s.pc + 2) ∧
      (∀ x, i = .jlt x → t.pc = if s.lt = true then x else s.pc + 2) ∧
      (∀ x, i = .jle x → t.pc = if s.gt = false then x else s.pc + 2))) ∧
  (∀ (s t : State) (w0 : Word) (rest : List Word) (r : Reject), ReadyAt s w0 rest →
    decode w0 rest = .bad r → step s = .next t → t.faultCause ≠ 0 ∧ t.pc = s.pc)

/-- LD in both modes completes in every state: the destination takes the source, pc advances by 3,
and nothing else changes. Rests on D3, D7, D8. (40_move_load.md R120) -/
def Obligations.LdCopiesSourceToRegister : Prop :=
  ∀ (d r : Reg) (k : Word) (s : State),
    RegWritten (.ldReg d r) s d (s.reg r) 3 ∧ RegWritten (.ldImm d k) s d k 3

/-- The load form of MOV completes in every state: d takes RAM[u(x[p])], p read before the step even
when it is d, pc advances by 3, and nothing else changes. Rests on D9, D24. (40_move_load.md
R121, 20_memory.md R56) -/
def Obligations.MovLoadCopiesRamToRegister : Prop :=
  ∀ (d p : Reg) (s : State), RegWritten (.movLoad d p) s d (s.ramRead (s.reg p)) 3

/-- Both store forms of MOV complete in every state whose RAM is in canonical form: RAM[u(x[p])]
takes the register or the literal, every other RAM word and everything else but pc, which
advances by 3, keeps its value. Rests on D9, D24. (40_move_load.md R122, R123, 20_memory.md R56,
R57) -/
def Obligations.MovStoreWritesOneRamWord : Prop :=
  ∀ (p r : Reg) (k : Word) (s : State), s.ram.wf →
    RamWritten (.movStoreReg p r) s p (s.reg r) ∧ RamWritten (.movStoreImm p k) s p k

/-- A MOV store through p followed by a MOV load through q completes and gives the stored word when
p and q hold the same address, and what RAM held before otherwise. (20_memory.md R60,
40_move_load.md R121, R122) -/
def Obligations.StoredWordIsLoadedBack : Prop :=
  ∀ (p r d q : Reg) (s : State), s.ram.wf → ∃ t u, exec (.movStoreReg p r) s = .next t ∧
    exec (.movLoad d q) t = .next u ∧
    u.reg d = (if s.reg q = s.reg p then s.reg r else s.ramRead (s.reg q))

/-- ADD completes in every state in both modes: the destination takes the sum modulo 65536, both
inputs read before the write, pc advances by 3, no flag and nothing else changes. Rests on D3,
the spec's own decision. (41_arithmetic.md R140, R141) -/
def Obligations.AddWrapsAtSixteenBits : Prop :=
  ∀ (d r : Reg) (k : Word) (s : State),
    (∃ v, uval v = (uval (s.reg d) + uval (s.reg r)) % 65536 ∧ RegWritten (.addReg d r) s d v 3) ∧
    (∃ v, uval v = (uval (s.reg d) + uval k) % 65536 ∧ RegWritten (.addImm d k) s d v 3)

/-- SUB completes in every state in both modes: the destination takes destination minus source
modulo 65536, both inputs read before the write, pc advances by 3, no flag and nothing else
changes. Rests on D3, the spec's own decision. (41_arithmetic.md R140, R142) -/
def Obligations.SubTakesSourceFromDestination : Prop :=
  ∀ (d r : Reg) (k : Word) (s : State),
    (∃ v, (uval v : Int) = ((uval (s.reg d) : Int) - uval (s.reg r)) % 65536 ∧ RegWritten (.subReg d r) s d v 3) ∧
    (∃ v, (uval v : Int) = ((uval (s.reg d) : Int) - uval k) % 65536 ∧ RegWritten (.subImm d k) s d v 3)

/-- MUL completes in every state in both modes: the destination takes the product modulo 65536, both
inputs read before the write, pc advances by 3, no flag and nothing else changes. Rests on D3,
the spec's own decision. (41_arithmetic.md R140, R143) -/
def Obligations.MulKeepsLowSixteenBits : Prop :=
  ∀ (d r : Reg) (k : Word) (s : State),
    (∃ v, uval v = (uval (s.reg d) * uval (s.reg r)) % 65536 ∧ RegWritten (.mulReg d r) s d v 3) ∧
    (∃ v, uval v = (uval (s.reg d) * uval k) % 65536 ∧ RegWritten (.mulImm d k) s d v 3)

/-- INC completes in every state: the register takes its value plus one modulo 65536, pc advances by
2, no flag and nothing else changes. Rests on D10, the spec's own decision. (41_arithmetic.md
R146) -/
def Obligations.IncAddsOne : Prop :=
  ∀ (d : Reg) (s : State),
    ∃ v, uval v = (uval (s.reg d) + 1) % 65536 ∧ RegWritten (.inc d) s d v 2

/-- Each of ADD, SUB, MUL (both modes) and INC also gives the signed result reduced by trunc16.
Rests on D3, the spec's own decision. (41_arithmetic.md R147, R141, R142, R143) -/
def Obligations.WrappingOpsAreTheSameSigned : Prop :=
  ∀ (d r : Reg) (k : Word) (s : State),
    RegWritten (.addReg d r) s d (trunc16 (sval (s.reg d) + sval (s.reg r))) 3 ∧
    RegWritten (.addImm d k) s d (trunc16 (sval (s.reg d) + sval k)) 3 ∧
    RegWritten (.subReg d r) s d (trunc16 (sval (s.reg d) - sval (s.reg r))) 3 ∧
    RegWritten (.subImm d k) s d (trunc16 (sval (s.reg d) - sval k)) 3 ∧
    RegWritten (.mulReg d r) s d (trunc16 (sval (s.reg d) * sval (s.reg r))) 3 ∧
    RegWritten (.mulImm d k) s d (trunc16 (sval (s.reg d) * sval k)) 3 ∧
    RegWritten (.inc d) s d (trunc16 (sval (s.reg d) + 1)) 2

/-- With a source that is not zero DIV completes in both modes: the destination takes trunc16 of the
truncated signed quotient (Int.tdiv), which is the exact quotient but for -32768 / -1, where it
is 0x8000; pc advances by 3 and nothing else changes. Rests on D14, D15. (41_arithmetic.md R144,
R147) -/
def Obligations.DivTruncatesTowardZero : Prop :=
  ∀ (d r : Reg) (k : Word) (s : State),
    (s.reg r ≠ 0 →
      RegWritten (.divReg d r) s d (trunc16 ((sval (s.reg d)).tdiv (sval (s.reg r)))) 3) ∧
    (k ≠ 0 → RegWritten (.divImm d k) s d (trunc16 ((sval (s.reg d)).tdiv (sval k))) 3) ∧
    (k ≠ 0 → ¬ (s.reg d = 0x8000 ∧ k = 0xFFFF) →
      sval (trunc16 ((sval (s.reg d)).tdiv (sval k))) = (sval (s.reg d)).tdiv (sval k)) ∧
    (s.reg d = 0x8000 → RegWritten (.divImm d 0xFFFF) s d 0x8000 3)

/-- With a source that is not zero MOD completes in both modes: the destination takes the word whose
signed value is the truncated remainder (Int.tmod), which is below the divisor in magnitude and
is zero or has the dividend's sign; pc advances by 3 and nothing else changes. Rests on D14,
D15. (41_arithmetic.md R145, R147) -/
def Obligations.ModTakesTheSignOfTheDividend : Prop :=
  ∀ (d r : Reg) (k : Word) (s : State),
    (s.reg r ≠ 0 → ∃ v, sval v = (sval (s.reg d)).tmod (sval (s.reg r)) ∧
      RegWritten (.modReg d r) s d v 3) ∧
    (k ≠ 0 → ∃ v, sval v = (sval (s.reg d)).tmod (sval k) ∧ RegWritten (.modImm d k) s d v 3 ∧
      (sval v).natAbs < (sval k).natAbs ∧ (v = 0 ∨ (sval v).sign = (sval (s.reg d)).sign))

/-- For integers a and b with b not zero: a = b * tdiv + trem; the magnitude of tdiv is floor(|a| /
|b|) and its sign is that of a * b or it is zero; |trem| < |b|; trem is zero or has the sign of
a. Rests on D15, the spec's own decision. (41_arithmetic.md R147) -/
def Obligations.TruncatingDivisionLaws : Prop :=
  ∀ a b : Int, b ≠ 0 →
    a = b * tdiv a b + trem a b ∧ (tdiv a b).natAbs = a.natAbs / b.natAbs ∧
    (tdiv a b = 0 ∨ (tdiv a b).sign = (a * b).sign) ∧
    (trem a b).natAbs < b.natAbs ∧ (trem a b = 0 ∨ (trem a b).sign = a.sign)

/-- With a source of zero, from a register or a literal, DIV and MOD record cause 8, pc and their
instruction word, and nothing else changes. Rests on D14, D18, D23. (60_exceptions.md R260,
R268, R269, 41_arithmetic.md R144, R145) -/
def Obligations.ZeroDivisorFaults : Prop :=
  ∀ (d r : Reg) (s : State),
    (s.reg r = 0 → exec (.divReg d r) s = .next (afterFault s 8 0x0501) ∧
      exec (.modReg d r) s = .next (afterFault s 8 0x0601)) ∧
    exec (.divImm d 0) s = .next (afterFault s 8 0x0502) ∧
    exec (.modImm d 0) s = .next (afterFault s 8 0x0602)

/-- AND, OR and XOR have their words of the table in both modes (format F2, 3 words) and complete in
every state: bit n of the destination is the and, or, xor of bit n of its old value and of the
source; pc advances by 3, no flag and nothing else changes. (R170, R171, R172) -/
def Obligations.BitwiseAndOrXorPerBit : Prop :=
  ∀ (d r : Reg) (k : Word) (s : State),
    encode (.andReg d r) = [0x0801, d.ordinal, r.ordinal] ∧
    encode (.andImm d k) = [0x0802, d.ordinal, k] ∧
    encode (.orReg d r) = [0x0901, d.ordinal, r.ordinal] ∧
    encode (.orImm d k) = [0x0902, d.ordinal, k] ∧
    encode (.xorReg d r) = [0x0A01, d.ordinal, r.ordinal] ∧
    encode (.xorImm d k) = [0x0A02, d.ordinal, k] ∧
    (∃ v, RegWritten (.andReg d r) s d v 3 ∧
      ∀ n < 16, v.getLsbD n = ((s.reg d).getLsbD n && (s.reg r).getLsbD n)) ∧
    (∃ v, RegWritten (.andImm d k) s d v 3 ∧
      ∀ n < 16, v.getLsbD n = ((s.reg d).getLsbD n && k.getLsbD n)) ∧
    (∃ v, RegWritten (.orReg d r) s d v 3 ∧
      ∀ n < 16, v.getLsbD n = ((s.reg d).getLsbD n || (s.reg r).getLsbD n)) ∧
    (∃ v, RegWritten (.orImm d k) s d v 3 ∧
      ∀ n < 16, v.getLsbD n = ((s.reg d).getLsbD n || k.getLsbD n)) ∧
    (∃ v, RegWritten (.xorReg d r) s d v 3 ∧
      ∀ n < 16, v.getLsbD n = ((s.reg d).getLsbD n ^^ (s.reg r).getLsbD n)) ∧
    (∃ v, RegWritten (.xorImm d k) s d v 3 ∧
      ∀ n < 16, v.getLsbD n = ((s.reg d).getLsbD n ^^ k.getLsbD n))

/-- NOT completes in every state in both modes: the destination takes 65535 minus the source, its
old value not entering, pc advances by 3, no flag and nothing else changes. Rests on D10 and
D11. (42_bitwise_shift.md R173) -/
def Obligations.NotComplementsTheSource : Prop :=
  ∀ (d r : Reg) (k : Word) (s : State),
    (∃ v, uval v = 65535 - uval (s.reg r) ∧ RegWritten (.notReg d r) s d v 3) ∧
    (∃ v, uval v = 65535 - uval k ∧ RegWritten (.notImm d k) s d v 3)

/-- SHL completes in every state in both modes: the destination takes u(a) * 2^n modulo 65536, n the
whole source unsigned, so 0 for every n of 16 or more; pc advances by 3, no flag and nothing
else changes. Rests on D16, the spec's own decision. (42_bitwise_shift.md R174) -/
def Obligations.ShlMultipliesByPowerOfTwo : Prop :=
  ∀ (d r : Reg) (k : Word) (s : State),
    (∃ v, uval v = (uval (s.reg d) * 2 ^ uval (s.reg r)) % 65536 ∧
      RegWritten (.shlReg d r) s d v 3) ∧
    (∃ v, uval v = (uval (s.reg d) * 2 ^ uval k) % 65536 ∧ RegWritten (.shlImm d k) s d v 3)

/-- SHR completes in every state in both modes: the signed value of the destination becomes
floor(s(a) / 2^n), n the whole source unsigned, so 0 or -1 by sign for every n of 15 or more; pc
advances by 3, no flag and nothing else changes. Rests on D16, the spec's own decision.
(42_bitwise_shift.md R175, R176) -/
def Obligations.ShrIsFloorDivisionByPowerOfTwo : Prop :=
  ∀ (d r : Reg) (k : Word) (s : State),
    (∃ v, sval v = (sval (s.reg d)).fdiv (2 ^ uval (s.reg r)) ∧
      RegWritten (.shrReg d r) s d v 3) ∧
    (∃ v, sval v = (sval (s.reg d)).fdiv (2 ^ uval k) ∧ RegWritten (.shrImm d k) s d v 3)

/-- In every state, SHL d #n and MUL d #(2^n) give the same state for n up to 15, and so do XOR d
#FFFF and NOT d d. Rests on D16 and D10. (42_bitwise_shift.md R172, R173, R176) -/
def Obligations.EquivalentInstructions : Prop :=
  ∀ (d : Reg) (s : State),
    (∀ n ≤ 15, exec (.shlImm d (BitVec.ofNat 16 n)) s =
      exec (.mulImm d (BitVec.ofNat 16 (2 ^ n))) s) ∧
    exec (.xorImm d 0xFFFF) s = exec (.notReg d d) s

/-- CMP completes in every state in both modes: gt iff s(a) - s(b) > 0, lt iff s(a) - s(b) < 0, the
difference exact; pc advances by 3 and nothing else changes. Rests on D3, D17. (43_compare.md
R200) -/
def Obligations.CmpSetsFlagsBySignedOrder : Prop :=
  ∀ (d r : Reg) (k : Word) (s : State),
    Compared (.cmpReg d r) s (sval (s.reg d)) (sval (s.reg r)) ∧
    Compared (.cmpImm d k) s (sval (s.reg d)) (sval k)

/-- After CMP, in both modes, JEQ, JNE, JGT, JGE, JLT, JLE are taken iff a = b, a /= b, a > b, a >=
b, a < b, a <= b in the signed reading; not taken they add 2 to pc; nothing else changes. Rests
on D3, D17. (43_compare.md R201, 44_control_transfer.md R212 to R217) -/
def Obligations.JumpsAfterCmpFollowTheOrder : Prop :=
  ∀ (d r : Reg) (y : Word) (s t : State),
    (exec (.cmpReg d r) s = .next t → JumpsFollow t (sval (s.reg d)) (sval (s.reg r)) y) ∧
    (∀ c, exec (.cmpImm d c) s = .next t → JumpsFollow t (sval (s.reg d)) (sval c) y)

/-- JMP and the six conditional jumps have their words of the table (format F1, 2 words) and
complete in every state for every target: taken, pc is the target word; not taken, pc + 2;
nothing else of the state changes. (R210, R211, R212, R213, R214, R215, R216, R217) -/
def Obligations.JumpsReadOnlyTheFlags : Prop :=
  ∀ (x : Word) (s : State),
    encode (.jmp x) = [0x0E00, x] ∧ exec (.jmp x) s = .next { s with pc := x } ∧
    encode (.jeq x) = [0x0F00, x] ∧ exec (.jeq x) s =
      .next { s with pc := if s.lt = false ∧ s.gt = false then x else s.pc + 2 } ∧
    encode (.jne x) = [0x1000, x] ∧ exec (.jne x) s =
      .next { s with pc := if s.lt = true ∨ s.gt = true then x else s.pc + 2 } ∧
    encode (.jgt x) = [0x1100, x] ∧ exec (.jgt x) s =
      .next { s with pc := if s.gt = true then x else s.pc + 2 } ∧
    encode (.jge x) = [0x1200, x] ∧ exec (.jge x) s =
      .next { s with pc := if s.lt = false then x else s.pc + 2 } ∧
    encode (.jlt x) = [0x1300, x] ∧ exec (.jlt x) s =
      .next { s with pc := if s.lt = true then x else s.pc + 2 } ∧
    encode (.jle x) = [0x1400, x] ∧ exec (.jle x) s =
      .next { s with pc := if s.gt = false then x else s.pc + 2 }

/-- With u(sp) below 65535 and STACK in canonical form CALL completes: sp goes up by 1, STACK at the
new sp takes pc + 2, pc is the target, no register, flag, RAM word or other STACK word changes.
Rests on D13, the spec's own decision. (44_control_transfer.md R218, 20_memory.md R58) -/
def Obligations.CallPushesReturnAddress : Prop :=
  ∀ (x : Word) (s : State), s.stack.wf → uval s.sp < 65535 → Pushed (.call x) s (s.pc + 2) x

/-- RET completes in every state: pc takes STACK[sp]; sp, every register, flag, RAM and STACK word
keep their values. Rests on D12, the spec's own decision (RET_POPS is false).
(44_control_transfer.md R219) -/
def Obligations.RetJumpsToTopOfStackWithoutPopping : Prop :=
  ∀ s : State, exec .ret s = .next { s with pc := s.stackRead s.sp }

/-- The return operation under RET_POPS = true, which this hardware does not take: at sp = 0 it
records cause 7 with word 0x1600; otherwise pc takes STACK[sp], sp goes down by 1 and nothing
else changes. This is the other value of the spec's decision D12; that returnStep is written for
both values is the model's choice (log entry 10); the fault rests on D18 and D23.
(44_control_transfer.md R219, 00_scope.md R9, 60_exceptions.md R260, R267, R269) -/
def Obligations.ReturnUnderTheOtherParameter : Prop :=
  ∀ s : State,
    (s.sp = 0 → returnStep true s = .next (afterFault s 7 0x1600)) ∧
    (s.sp ≠ 0 → returnStep true s = .next { s with pc := s.stackRead s.sp, sp := s.sp - 1 })

/-- With u(sp) below 65535 and STACK in canonical form, CALL and then RET complete: pc is the old pc
plus 2, sp is one higher, the return address is still at STACK[sp], and no register changes.
Rests on D12, D13. (44_control_transfer.md R218, R219, R220) -/
def Obligations.CallThenRetLeavesTheReturnSlot : Prop :=
  ∀ (x : Word) (s : State), s.stack.wf → uval s.sp < 65535 →
    ∃ t u, exec (.call x) s = .next t ∧ exec .ret t = .next u ∧ u.pc = s.pc + 2 ∧
      u.sp = s.sp + 1 ∧ u.stackRead u.sp = s.pc + 2 ∧ ∀ r, u.reg r = s.reg r

/-- With u(sp) below 65535 and STACK in canonical form PUSH completes in both modes: sp goes up by
1, STACK at the new sp takes the value, pc advances by 2, no register, flag, RAM word or other
STACK word changes. Rests on D13. (45_stack.md R240, 20_memory.md R58) -/
def Obligations.PushStoresAtIncrementedPointer : Prop :=
  ∀ (r : Reg) (k : Word) (s : State), s.stack.wf → uval s.sp < 65535 →
    Pushed (.pushReg r) s (s.reg r) (s.pc + 2) ∧ Pushed (.pushImm k) s k (s.pc + 2)

/-- With sp not 0 POP completes: the register takes STACK[sp], sp goes down by 1 without wrapping,
pc advances by 2, no other register, no flag, RAM or STACK word changes. Rests on D13.
(45_stack.md R241, 20_memory.md R58) -/
def Obligations.PopReadsTopAndDecrements : Prop :=
  ∀ (d : Reg) (s : State), s.sp ≠ 0 →
    ∃ t, exec (.pop d) s = .next t ∧ t.reg d = s.stackRead s.sp ∧ uval t.sp = uval s.sp - 1 ∧
      uval t.sp < uval s.sp ∧ t.pc = s.pc + 2 ∧ FlagsKept s t ∧
      Frame s t (fun r => r = d) (fun _ => False) (fun _ => False)

/-- With u(sp) = 65535, PUSH in both modes and CALL record cause 6, pc and their instruction word,
and nothing else changes. Rests on D13, D18, D23. (60_exceptions.md R260, R266, R269,
45_stack.md R240, 44_control_transfer.md R218) -/
def Obligations.PushOnFullStackFaults : Prop :=
  ∀ (r : Reg) (k : Word) (s : State), uval s.sp = 65535 →
    exec (.pushReg r) s = .next (afterFault s 6 0x1801) ∧
    exec (.pushImm k) s = .next (afterFault s 6 0x1802) ∧
    exec (.call k) s = .next (afterFault s 6 0x1500)

/-- With u(sp) = 0, POP records cause 7, pc and its instruction word, and nothing else changes; the
register keeps its value. Rests on D13, D18, D23. (60_exceptions.md R260, R267, R269,
45_stack.md R241) -/
def Obligations.PopOnEmptyStackFaults : Prop :=
  ∀ (d : Reg) (s : State), uval s.sp = 0 → exec (.pop d) s = .next (afterFault s 7 0x1900)

/-- With u(sp) below 65535 and STACK in canonical form, PUSH (either mode) and then POP complete:
the register holds the pushed value, sp is as before, pc has advanced by 4, the flags, other
registers and RAM are as before. Rests on D13. (45_stack.md R242, R240, R241) -/
def Obligations.PushThenPopRestores : Prop :=
  ∀ (r d : Reg) (k : Word) (s : State), s.stack.wf → uval s.sp < 65535 →
    ∀ i v, (i = .pushReg r ∧ v = s.reg r) ∨ (i = .pushImm k ∧ v = k) →
      ∃ t u, exec i s = .next t ∧ exec (.pop d) t = .next u ∧ u.reg d = v ∧ u.sp = s.sp ∧
        u.pc = s.pc + 4 ∧ FlagsKept s u ∧ (∀ q, q ≠ d → u.reg q = s.reg q) ∧
        (∀ a, u.ramRead a = s.ramRead a)

/-- For every instruction that gives a next state: if it is not CMP both flags keep their values; a
CMP's whole result does not depend on the old flags and does not leave both true; an instruction
that is neither a CMP nor a conditional jump gives the same state whatever the flags are, but
for the flags carried along. Each of the six conditional jumps, in every state and for all
values put in the flags, is taken by those values (JEQ when both are false, JNE when either is
true, JGT gt, JGE not lt, JLT lt, JLE not gt). (R28) -/
def Obligations.FlagsAreCmpsAndTheJumpsAlone : Prop :=
  (∀ (i : Instr) (s t : State), exec i s = .next t →
    (i.raw.op ≠ .CMP → FlagsKept s t) ∧
    (i.raw.op = .CMP → ¬ (t.lt = true ∧ t.gt = true)) ∧
    (∀ l g, i.raw.op = .CMP → exec i { s with lt := l, gt := g } = .next t) ∧
    (∀ l g, i.raw.op ≠ .CMP → i.raw.op ∉ conditionalJumps →
      exec i { s with lt := l, gt := g } = .next { t with lt := l, gt := g })) ∧
  (∀ (x : Word) (s : State) (l g : Bool),
    JumpReads (.jeq x) s l g x (l = false ∧ g = false) ∧
    JumpReads (.jne x) s l g x (l = true ∨ g = true) ∧
    JumpReads (.jgt x) s l g x (g = true) ∧
    JumpReads (.jge x) s l g x (l = false) ∧
    JumpReads (.jlt x) s l g x (l = true) ∧
    JumpReads (.jle x) s l g x (g = false))

/-- For every instruction that gives a next state: unless it is MOV in mode REGISTER or IMMEDIATE
every RAM word is kept; such a MOV keeps every RAM word but the one at the value of its pointer
register; an instruction that is no MOV gives the same state whatever RAM holds, but for RAM
carried along; a storing MOV gives over any RAM a state that differs at most in RAM, and over
any two canonical RAMs it stores the same word at its effective address; a MOV INDIRECT depends
on the one word at the value of its pointer register. (R32) -/
def Obligations.RamIsReachedOnlyByMov : Prop :=
  ∀ (i : Instr) (s t : State), exec i s = .next t →
    (¬ (i.raw.op = .MOV ∧ i.raw.mode ≠ .INDIRECT) → ∀ a, t.ramRead a = s.ramRead a) ∧
    (∀ p : Reg, i.raw.op = .MOV → i.raw.mode ≠ .INDIRECT → i.raw.operands[0]? = some p.ordinal →
      effectiveAddress p s = s.reg p ∧ ∀ a, a ≠ s.reg p → t.ramRead a = s.ramRead a) ∧
    (∀ m, i.raw.op ≠ .MOV → exec i { s with ram := m } = .next { t with ram := m }) ∧
    (∀ (p : Reg) (m : Memory), i.raw.op = .MOV → i.raw.mode ≠ .INDIRECT →
      i.raw.operands[0]? = some p.ordinal →
      ∃ t', exec i { s with ram := m } = .next t' ∧ { t' with ram := t.ram } = t ∧
        (s.ram.wf → m.wf →
          t'.ramRead (effectiveAddress p s) = t.ramRead (effectiveAddress p s))) ∧
    (∀ (p : Reg) (m : Memory), i.raw.op = .MOV → i.raw.mode = .INDIRECT →
      i.raw.operands[1]? = some p.ordinal → m.read (uval (s.reg p)) = s.ramRead (s.reg p) →
      exec i { s with ram := m } = .next { t with ram := m })

/-- For every instruction that gives a next state: unless it is PUSH or CALL every STACK word is
kept; PUSH and CALL keep every STACK word but the one at sp + 1; any instruction but PUSH, CALL,
POP and RET gives the same state whatever STACK holds, but for STACK carried along; PUSH and
CALL give over any STACK a state that differs at most in STACK, store the same word at sp + 1
over any two canonical STACKs when u(sp) is below 65535, and write no STACK word when it is
65535; POP and RET depend on the one word at sp; PUSH, CALL, POP and RET keep every RAM word and
give the same state whatever RAM holds, but for RAM carried along. The full stack and the index
sp + 1 are the spec's decision D13, RET's reading without a pop D12. (10_state.md R33,
20_memory.md R58, R65, 44_control_transfer.md R218, R219, 45_stack.md R240, R241) -/
def Obligations.StackIsReachedOnlyThroughSp : Prop :=
  ∀ (i : Instr) (s t : State), exec i s = .next t →
    (i.raw.op ∉ [Opcode.PUSH, .CALL] → ∀ a, t.stackRead a = s.stackRead a) ∧
    (i.raw.op ∈ [Opcode.PUSH, .CALL] → ∀ a, a ≠ s.sp + 1 → t.stackRead a = s.stackRead a) ∧
    (∀ m, i.raw.op ∉ [Opcode.PUSH, .CALL, .POP, .RET] →
      exec i { s with stack := m } = .next { t with stack := m }) ∧
    (∀ m : Memory, i.raw.op ∈ [Opcode.PUSH, .CALL] →
      ∃ t', exec i { s with stack := m } = .next t' ∧ { t' with stack := t.stack } = t ∧
        (uval s.sp < 65535 → s.stack.wf → m.wf →
          t'.stackRead (s.sp + 1) = t.stackRead (s.sp + 1)) ∧
        (uval s.sp = 65535 → t'.stack = m)) ∧
    (∀ m : Memory, i.raw.op ∈ [Opcode.POP, .RET] → m.read (uval s.sp) = s.stackRead s.sp →
      exec i { s with stack := m } = .next { t with stack := m }) ∧
    (i.raw.op ∈ [Opcode.PUSH, .CALL, .POP, .RET] →
      (∀ a, t.ramRead a = s.ramRead a) ∧
      ∀ m, exec i { s with ram := m } = .next { t with ram := m })

/-- For every instruction that gives a next state: if its opcode writes no register, or it is a
store form of MOV, every register is kept; otherwise every register but the one its first
operand names is kept; unless it is PUSH, POP or CALL, sp is kept. (10_state.md R20, R22, R23,
R27) -/
def Obligations.RegistersAndSpHaveOnlyTheirWriters : Prop :=
  ∀ (i : Instr) (s t : State), exec i s = .next t →
    (i.raw.op ∉ registerWriters ∨ (i.raw.op = .MOV ∧ i.raw.mode ≠ .INDIRECT) →
      ∀ r, t.reg r = s.reg r) ∧
    (∀ r : Reg, i.raw.operands[0]? ≠ some r.ordinal → t.reg r = s.reg r) ∧
    (i.raw.op ∉ [Opcode.PUSH, .POP, .CALL] → t.sp = s.sp)

/-- A step never changes the Program; and an instruction's result does not depend on the Program,
which is carried along apart. Rests on D25, the spec's own decision. (10_state.md R34,
20_memory.md R59, R63, 00_scope.md R6) -/
def Obligations.ProgramIsNeitherReadAsDataNorWritten : Prop :=
  (∀ s t : State, step s = .next t → t.program = s.program) ∧
  (∀ (i : Instr) (s t : State) (p : List Word), exec i s = .next t →
    exec i { s with program := p } = .next { t with program := p })

/-- If two memories are in canonical form and give the same word at each of the 65536 addresses,
they are equal. The canonical form is the model's own (log entry 4). (20_memory.md R50, R57,
R60, 10_state.md R32, R33) -/
def Obligations.CanonicalMemoriesWithEqualReadsAreEqual : Prop :=
  ∀ m n : Memory, m.wf → n.wf → (∀ a < 65536, m.read a = n.read a) → m = n
end

