-- ==== Sys2Proof/Laws/Alu.lean ====
section
/-! SUPPORT. What trunc16 and the two readings of a word do to each other, and the model's truncated division as the one Lean's library has. -/

namespace Sys2Proof.Machine

/-- R11: `u(trunc16(n)) = n mod 65536`. -/
theorem uval_trunc16 (n : Int) : (uval (trunc16 n) : Int) = n % 65536 := by
  simp [trunc16, BitVec.toNat_ofInt]
  omega

/-- Two integers equal modulo 65536 have the same pattern. -/
theorem trunc16_eq_of_emod {a b : Int} (h : a % 65536 = b % 65536) : trunc16 a = trunc16 b := by
  apply BitVec.eq_of_toNat_eq
  have h1 := uval_trunc16 a
  have h2 := uval_trunc16 b
  simp only [uval] at h1 h2
  omega

/-- The two readings of a word agree modulo 65536. -/
theorem sval_emod (w : Word) : sval w % 65536 = (uval w : Int) % 65536 := by
  simp only [sval, uval, BitVec.toInt_eq_toNat_cond]
  split <;> omega

theorem sval_range (w : Word) : -32768 ≤ sval w ∧ sval w ≤ 32767 := by
  simp only [sval, BitVec.toInt_eq_toNat_cond]
  have := w.isLt
  split <;> omega

/-- An integer in the signed range is kept by `trunc16`. -/
theorem sval_trunc16 {n : Int} (h1 : -32768 ≤ n) (h2 : n ≤ 32767) : sval (trunc16 n) = n := by
  have := uval_trunc16 n
  simp only [sval, uval, BitVec.toInt_eq_toNat_cond] at *
  split <;> omega

theorem sval_ne_zero {b : Word} (h : b ≠ 0) : sval b ≠ 0 := fun e =>
  h (BitVec.eq_of_toInt_eq (by simpa [sval] using e))

theorem tdiv_eq_tdiv (a b : Int) : tdiv a b = a.tdiv b := by
  unfold tdiv
  rw [mul_assoc]
  have nat : ∀ a b : Nat, (a : Int).sign * ((b : Int).sign * ((a / b : Nat) : Int)) =
      (a : Int).tdiv b := by
    intro a b
    rcases a with _ | a
    · simp
    rcases b with _ | b
    · simp
    rw [Int.sign_eq_one_of_pos (by omega), Int.sign_eq_one_of_pos (by omega), one_mul, one_mul]
    rfl
  have left : ∀ (a : Nat) (b : Int),
      (a : Int).sign * (b.sign * ((a / b.natAbs : Nat) : Int)) = (a : Int).tdiv b := by
    intro a b
    obtain ⟨n, rfl | rfl⟩ := b.eq_nat_or_neg
    · exact nat a n
    · rw [Int.sign_neg, Int.natAbs_neg, Int.tdiv_neg, ← nat a n, Int.natAbs_natCast]
      ring
  obtain ⟨n, rfl | rfl⟩ := a.eq_nat_or_neg
  · exact left n b
  · rw [Int.sign_neg, Int.natAbs_neg, Int.neg_tdiv, ← left n b, Int.natAbs_natCast]
    ring

theorem trem_eq_tmod (a b : Int) : trem a b = a.tmod b := by
  rw [trem, tdiv_eq_tdiv, Int.tmod_def]

end Sys2Proof.Machine
end

