-- ==== Sys2Proof/Laws/Decode.lean ====
section
/-! SUPPORT. The Codec's small lemmas: each ordinal map and its inverse, the two bytes of a packed instruction word. -/

namespace Sys2Proof

@[simp] theorem Opcode.ofOrdinal?_ordinal (op : Opcode) : Opcode.ofOrdinal? op.ordinal = some op := by
  cases op <;> rfl

@[simp] theorem Mode.ofOrdinal?_ordinal (m : Mode) : Mode.ofOrdinal? m.ordinal = some m := by
  cases m <;> rfl

@[simp] theorem Reg.ofOrdinal?_ordinal (r : Reg) : Reg.ofOrdinal? r.ordinal = some r := by
  cases r <;> rfl

theorem Opcode.ordinal_of_ofOrdinal? {b : BitVec 8} {op : Opcode}
    (h : Opcode.ofOrdinal? b = some op) : op.ordinal = b := by
  simpa using List.find?_some h

theorem Mode.ordinal_of_ofOrdinal? {b : BitVec 8} {m : Mode}
    (h : Mode.ofOrdinal? b = some m) : m.ordinal = b := by
  simpa using List.find?_some h

theorem Reg.ordinal_of_ofOrdinal? {w : Word} {r : Reg}
    (h : Reg.ofOrdinal? w = some r) : r.ordinal = w := by
  simpa using List.find?_some h

theorem hiByte_append (a b : BitVec 8) : hiByte (a ++ b) = a := by
  unfold hiByte
  ext i hi
  rw [BitVec.getElem_extractLsb']
  exact (BitVec.getLsbD_append (x := a) (y := b)).trans (by simp [hi])

theorem loByte_append (a b : BitVec 8) : loByte (a ++ b) = b := by
  unfold loByte
  ext i hi
  rw [BitVec.getElem_extractLsb']
  exact (BitVec.getLsbD_append (x := a) (y := b)).trans (by simp [hi])

/-- A word is its two bytes. -/
theorem hiByte_append_loByte (w : Word) : hiByte w ++ loByte w = w := by
  show (w.extractLsb' 8 8 ++ w.extractLsb' 0 8 : BitVec (8 + 8)) = w
  apply BitVec.eq_of_getLsbD_eq
  intro i hi
  rw [BitVec.getLsbD_append]
  by_cases h : i < 8
  · simp [h]
  · have h' : i - 8 < 8 := by omega
    simp [h, h', show 8 + (i - 8) = i by omega]

@[simp] theorem decodePair_codec (op : Opcode) (m : Mode) :
    decodePair (codec op m) = .pair op m := by
  simp [decodePair, codec, hiByte_append, loByte_append]

/-- The pair read from a word packs back into that word: decoding is the exact inverse (R81). -/
theorem codec_of_decodePair {w : Word} {op : Opcode} {m : Mode}
    (h : decodePair w = .pair op m) : codec op m = w := by
  unfold decodePair at h
  split at h
  · cases h
  · rename_i hop
    split at h
    · cases h
    · rename_i hm
      cases h
      rw [codec, Opcode.ordinal_of_ofOrdinal? hop, Mode.ordinal_of_ofOrdinal? hm,
        hiByte_append_loByte]

/-- What an accepted decode rests on: a legal pair, and a form whose operands were read. -/
theorem decode_ok {w0 : Word} {rest : List Word} {i : Instr} (h : decode w0 rest = .ok i) :
    ∃ op m f, decodePair w0 = .pair op m ∧ form op m = some f ∧ decodeOperands f rest = .ok i := by
  unfold decode at h
  split at h
  · cases h
  · rename_i op m hp
    split at h
    · cases h
    · rename_i f hf
      exact ⟨op, m, f, hp, hf, h⟩

/-- `rest` begins with operand words of which the form `f` makes the instruction `i`. -/
def Form.makes (f : Form) (rest : List Word) (i : Instr) : Prop :=
  match f with
  | .none j => i = j
  | .reg mk => ∃ a tl, rest = Reg.ordinal a :: tl ∧ i = mk a
  | .word mk => ∃ w tl, rest = w :: tl ∧ i = mk w
  | .regReg mk => ∃ a b tl, rest = Reg.ordinal a :: Reg.ordinal b :: tl ∧ i = mk a b
  | .regWord mk => ∃ a w tl, rest = Reg.ordinal a :: w :: tl ∧ i = mk a w

/-- What the operand words of an accepted decode are, by the form. -/
theorem decodeOperands_ok {f : Form} {rest : List Word} {i : Instr}
    (h : decodeOperands f rest = .ok i) : f.makes rest i := by
  cases f with
  | none j => cases h; rfl
  | reg mk =>
    cases rest with
    | nil => cases h
    | cons w1 tl =>
      simp only [decodeOperands] at h
      split at h
      · cases h
      · rename_i ha
        cases h
        exact ⟨_, tl, by rw [Reg.ordinal_of_ofOrdinal? ha], rfl⟩
  | word mk =>
    cases rest with
    | nil => cases h
    | cons w1 tl => cases h; exact ⟨_, _, rfl, rfl⟩
  | regReg mk =>
    match rest, h with
    | w1 :: w2 :: tl, h =>
      simp only [decodeOperands] at h
      split at h
      · cases h
      · rename_i ha
        split at h
        · cases h
        · rename_i hb
          cases h
          exact ⟨_, _, tl, by rw [Reg.ordinal_of_ofOrdinal? ha, Reg.ordinal_of_ofOrdinal? hb], rfl⟩
  | regWord mk =>
    match rest, h with
    | w1 :: w2 :: tl, h =>
      simp only [decodeOperands] at h
      split at h
      · cases h
      · rename_i ha
        cases h
        exact ⟨_, w2, tl, by rw [Reg.ordinal_of_ofOrdinal? ha], rfl⟩

/-- The form of a legal pair makes instructions of that pair. -/
theorem raw_of_decodeOperands {op : Opcode} {m : Mode} {f : Form} {rest : List Word} {i : Instr}
    (hf : form op m = some f) (h : decodeOperands f rest = .ok i) :
    i.raw.op = op ∧ i.raw.mode = m := by
  have hi := decodeOperands_ok h
  cases op <;> cases m <;> cases hf <;> simp only [Form.makes] at hi
  all_goals
    obtain ⟨_, _, _, -, rfl⟩ := hi
    exact ⟨rfl, rfl⟩

/-- The instruction word of a decoded instruction is the word it was decoded from. -/
theorem word0_of_decode {w0 : Word} {rest : List Word} {i : Instr} (h : decode w0 rest = .ok i) :
    i.word0 = w0 := by
  obtain ⟨op, m, f, hp, hf, ho⟩ := decode_ok h
  have hr := raw_of_decodeOperands hf ho
  rw [Instr.word0, hr.1, hr.2, codec_of_decodePair hp]

/-- The opcode byte is undefined exactly from 26 on (R82). -/
theorem Opcode.ofOrdinal?_eq_none_iff (b : BitVec 8) :
    Opcode.ofOrdinal? b = none ↔ 26 ≤ b.toNat := by
  revert b
  decide +kernel

/-- The mode byte is undefined exactly from 4 on (R83). -/
theorem Mode.ofOrdinal?_eq_none_iff (b : BitVec 8) :
    Mode.ofOrdinal? b = none ↔ 4 ≤ b.toNat := by
  revert b
  decide +kernel

/-- An operand word names no register exactly when it is above 7 (R85). -/
theorem Reg.ofOrdinal?_eq_none_iff (w : Word) : Reg.ofOrdinal? w = none ↔ 7 < uval w := by
  constructor
  · intro h
    by_contra hc
    have hc : w.toNat ≤ 7 := by simpa using hc
    have : w = 0#16 ∨ w = 1#16 ∨ w = 2#16 ∨ w = 3#16 ∨ w = 4#16 ∨ w = 5#16 ∨ w = 6#16 ∨
        w = 7#16 := by
      simp only [← BitVec.toNat_inj, BitVec.toNat_ofNat, Nat.reducePow, Nat.reduceMod]
      omega
    rcases this with rfl | rfl | rfl | rfl | rfl | rfl | rfl | rfl <;>
      simp [Reg.ofOrdinal?, Reg.all, Reg.ordinal] at h
  · intro h
    cases hr : Reg.ofOrdinal? w with
    | none => rfl
    | some r =>
      have : uval w ≤ 7 := by
        rw [← Reg.ordinal_of_ofOrdinal? hr]
        cases r <;> decide
      omega

theorem hiByte_toNat (w : Word) : (hiByte w).toNat = uval w / 256 := by
  have := w.isLt
  simp [hiByte, BitVec.extractLsb'_toNat, Nat.shiftRight_eq_div_pow]
  omega

theorem loByte_toNat (w : Word) : (loByte w).toNat = uval w % 256 := by
  simp [loByte, BitVec.extractLsb'_toNat]

/-- What a rejection rests on. -/
theorem decode_bad {w0 : Word} {rest : List Word} {r : Reject} (h : decode w0 rest = .bad r) :
    (r = .illegalOpcode ∧ Opcode.ofOrdinal? (hiByte w0) = none) ∨
    (r = .illegalMode ∧ Opcode.ofOrdinal? (hiByte w0) ≠ none ∧
      Mode.ofOrdinal? (loByte w0) = none) ∨
    ∃ op m, decodePair w0 = .pair op m ∧
      ((r = .illegalPair ∧ form op m = none) ∨
       ∃ f, form op m = some f ∧ decodeOperands f rest = .bad r) := by
  unfold decode at h
  cases hp : decodePair w0 with
  | bad q =>
    simp only [hp] at h
    cases h
    unfold decodePair at hp
    split at hp
    · cases hp
      exact .inl ⟨rfl, ‹_›⟩
    · split at hp
      · cases hp
        exact .inr (.inl ⟨rfl, by simp_all, ‹_›⟩)
      · cases hp
  | pair op m =>
    simp only [hp] at h
    refine .inr (.inr ⟨op, m, rfl, ?_⟩)
    cases hf : form op m with
    | none =>
      simp only [hf] at h
      cases h
      exact .inl ⟨rfl, rfl⟩
    | some f =>
      simp only [hf] at h
      exact .inr ⟨f, rfl, h⟩

end Sys2Proof
end

