-- ==== Sys2Proof/Laws/State.lean ====
section
/-! SUPPORT. One lemma per field per update of State, each true by rfl. -/

namespace Sys2Proof.Machine

variable (s : State)

/-! `setReg` -/

@[simp] theorem State.setReg_regs (r : Reg) (v : Word) : (s.setReg r v).regs = s.regs.set r v := rfl
@[simp] theorem State.setReg_pc (r : Reg) (v : Word) : (s.setReg r v).pc = s.pc := rfl
@[simp] theorem State.setReg_sp (r : Reg) (v : Word) : (s.setReg r v).sp = s.sp := rfl
@[simp] theorem State.setReg_lt (r : Reg) (v : Word) : (s.setReg r v).lt = s.lt := rfl
@[simp] theorem State.setReg_gt (r : Reg) (v : Word) : (s.setReg r v).gt = s.gt := rfl
@[simp] theorem State.setReg_faultCause (r : Reg) (v : Word) : (s.setReg r v).faultCause = s.faultCause := rfl
@[simp] theorem State.setReg_faultPc (r : Reg) (v : Word) : (s.setReg r v).faultPc = s.faultPc := rfl
@[simp] theorem State.setReg_faultWord (r : Reg) (v : Word) : (s.setReg r v).faultWord = s.faultWord := rfl
@[simp] theorem State.setReg_ram (r : Reg) (v : Word) : (s.setReg r v).ram = s.ram := rfl
@[simp] theorem State.setReg_stack (r : Reg) (v : Word) : (s.setReg r v).stack = s.stack := rfl
@[simp] theorem State.setReg_program (r : Reg) (v : Word) : (s.setReg r v).program = s.program := rfl

/-! `ramWrite` -/

@[simp] theorem State.ramWrite_regs (a v : Word) : (s.ramWrite a v).regs = s.regs := rfl
@[simp] theorem State.ramWrite_pc (a v : Word) : (s.ramWrite a v).pc = s.pc := rfl
@[simp] theorem State.ramWrite_sp (a v : Word) : (s.ramWrite a v).sp = s.sp := rfl
@[simp] theorem State.ramWrite_lt (a v : Word) : (s.ramWrite a v).lt = s.lt := rfl
@[simp] theorem State.ramWrite_gt (a v : Word) : (s.ramWrite a v).gt = s.gt := rfl
@[simp] theorem State.ramWrite_faultCause (a v : Word) : (s.ramWrite a v).faultCause = s.faultCause := rfl
@[simp] theorem State.ramWrite_faultPc (a v : Word) : (s.ramWrite a v).faultPc = s.faultPc := rfl
@[simp] theorem State.ramWrite_faultWord (a v : Word) : (s.ramWrite a v).faultWord = s.faultWord := rfl
@[simp] theorem State.ramWrite_ram (a v : Word) : (s.ramWrite a v).ram = s.ram.write a.toNat v := rfl
@[simp] theorem State.ramWrite_stack (a v : Word) : (s.ramWrite a v).stack = s.stack := rfl
@[simp] theorem State.ramWrite_program (a v : Word) : (s.ramWrite a v).program = s.program := rfl

/-! `stackWrite` -/

@[simp] theorem State.stackWrite_regs (a v : Word) : (s.stackWrite a v).regs = s.regs := rfl
@[simp] theorem State.stackWrite_pc (a v : Word) : (s.stackWrite a v).pc = s.pc := rfl
@[simp] theorem State.stackWrite_sp (a v : Word) : (s.stackWrite a v).sp = s.sp := rfl
@[simp] theorem State.stackWrite_lt (a v : Word) : (s.stackWrite a v).lt = s.lt := rfl
@[simp] theorem State.stackWrite_gt (a v : Word) : (s.stackWrite a v).gt = s.gt := rfl
@[simp] theorem State.stackWrite_faultCause (a v : Word) : (s.stackWrite a v).faultCause = s.faultCause := rfl
@[simp] theorem State.stackWrite_faultPc (a v : Word) : (s.stackWrite a v).faultPc = s.faultPc := rfl
@[simp] theorem State.stackWrite_faultWord (a v : Word) : (s.stackWrite a v).faultWord = s.faultWord := rfl
@[simp] theorem State.stackWrite_ram (a v : Word) : (s.stackWrite a v).ram = s.ram := rfl
@[simp] theorem State.stackWrite_stack (a v : Word) : (s.stackWrite a v).stack = s.stack.write a.toNat v := rfl
@[simp] theorem State.stackWrite_program (a v : Word) : (s.stackWrite a v).program = s.program := rfl

/-! `advance` -/

@[simp] theorem State.advance_regs (n : Nat) : (s.advance n).regs = s.regs := rfl
@[simp] theorem State.advance_pc (n : Nat) : (s.advance n).pc = s.pc + BitVec.ofNat 16 n := rfl
@[simp] theorem State.advance_sp (n : Nat) : (s.advance n).sp = s.sp := rfl
@[simp] theorem State.advance_lt (n : Nat) : (s.advance n).lt = s.lt := rfl
@[simp] theorem State.advance_gt (n : Nat) : (s.advance n).gt = s.gt := rfl
@[simp] theorem State.advance_faultCause (n : Nat) : (s.advance n).faultCause = s.faultCause := rfl
@[simp] theorem State.advance_faultPc (n : Nat) : (s.advance n).faultPc = s.faultPc := rfl
@[simp] theorem State.advance_faultWord (n : Nat) : (s.advance n).faultWord = s.faultWord := rfl
@[simp] theorem State.advance_ram (n : Nat) : (s.advance n).ram = s.ram := rfl
@[simp] theorem State.advance_stack (n : Nat) : (s.advance n).stack = s.stack := rfl
@[simp] theorem State.advance_program (n : Nat) : (s.advance n).program = s.program := rfl

/-! `jumpTo` -/

@[simp] theorem State.jumpTo_regs (a : Word) : (s.jumpTo a).regs = s.regs := rfl
@[simp] theorem State.jumpTo_pc (a : Word) : (s.jumpTo a).pc = a := rfl
@[simp] theorem State.jumpTo_sp (a : Word) : (s.jumpTo a).sp = s.sp := rfl
@[simp] theorem State.jumpTo_lt (a : Word) : (s.jumpTo a).lt = s.lt := rfl
@[simp] theorem State.jumpTo_gt (a : Word) : (s.jumpTo a).gt = s.gt := rfl
@[simp] theorem State.jumpTo_faultCause (a : Word) : (s.jumpTo a).faultCause = s.faultCause := rfl
@[simp] theorem State.jumpTo_faultPc (a : Word) : (s.jumpTo a).faultPc = s.faultPc := rfl
@[simp] theorem State.jumpTo_faultWord (a : Word) : (s.jumpTo a).faultWord = s.faultWord := rfl
@[simp] theorem State.jumpTo_ram (a : Word) : (s.jumpTo a).ram = s.ram := rfl
@[simp] theorem State.jumpTo_stack (a : Word) : (s.jumpTo a).stack = s.stack := rfl
@[simp] theorem State.jumpTo_program (a : Word) : (s.jumpTo a).program = s.program := rfl

/-! `setFlags` -/

@[simp] theorem State.setFlags_regs (l g : Bool) : (s.setFlags l g).regs = s.regs := rfl
@[simp] theorem State.setFlags_pc (l g : Bool) : (s.setFlags l g).pc = s.pc := rfl
@[simp] theorem State.setFlags_sp (l g : Bool) : (s.setFlags l g).sp = s.sp := rfl
@[simp] theorem State.setFlags_lt (l g : Bool) : (s.setFlags l g).lt = l := rfl
@[simp] theorem State.setFlags_gt (l g : Bool) : (s.setFlags l g).gt = g := rfl
@[simp] theorem State.setFlags_faultCause (l g : Bool) : (s.setFlags l g).faultCause = s.faultCause := rfl
@[simp] theorem State.setFlags_faultPc (l g : Bool) : (s.setFlags l g).faultPc = s.faultPc := rfl
@[simp] theorem State.setFlags_faultWord (l g : Bool) : (s.setFlags l g).faultWord = s.faultWord := rfl
@[simp] theorem State.setFlags_ram (l g : Bool) : (s.setFlags l g).ram = s.ram := rfl
@[simp] theorem State.setFlags_stack (l g : Bool) : (s.setFlags l g).stack = s.stack := rfl
@[simp] theorem State.setFlags_program (l g : Bool) : (s.setFlags l g).program = s.program := rfl

/-! `setSp` -/

@[simp] theorem State.setSp_regs (v : Word) : (s.setSp v).regs = s.regs := rfl
@[simp] theorem State.setSp_pc (v : Word) : (s.setSp v).pc = s.pc := rfl
@[simp] theorem State.setSp_sp (v : Word) : (s.setSp v).sp = v := rfl
@[simp] theorem State.setSp_lt (v : Word) : (s.setSp v).lt = s.lt := rfl
@[simp] theorem State.setSp_gt (v : Word) : (s.setSp v).gt = s.gt := rfl
@[simp] theorem State.setSp_faultCause (v : Word) : (s.setSp v).faultCause = s.faultCause := rfl
@[simp] theorem State.setSp_faultPc (v : Word) : (s.setSp v).faultPc = s.faultPc := rfl
@[simp] theorem State.setSp_faultWord (v : Word) : (s.setSp v).faultWord = s.faultWord := rfl
@[simp] theorem State.setSp_ram (v : Word) : (s.setSp v).ram = s.ram := rfl
@[simp] theorem State.setSp_stack (v : Word) : (s.setSp v).stack = s.stack := rfl
@[simp] theorem State.setSp_program (v : Word) : (s.setSp v).program = s.program := rfl

/-! `push` -/

@[simp] theorem State.push_regs (v : Word) : (s.push v).regs = s.regs := rfl
@[simp] theorem State.push_pc (v : Word) : (s.push v).pc = s.pc := rfl
@[simp] theorem State.push_sp (v : Word) : (s.push v).sp = s.sp + 1 := rfl
@[simp] theorem State.push_lt (v : Word) : (s.push v).lt = s.lt := rfl
@[simp] theorem State.push_gt (v : Word) : (s.push v).gt = s.gt := rfl
@[simp] theorem State.push_faultCause (v : Word) : (s.push v).faultCause = s.faultCause := rfl
@[simp] theorem State.push_faultPc (v : Word) : (s.push v).faultPc = s.faultPc := rfl
@[simp] theorem State.push_faultWord (v : Word) : (s.push v).faultWord = s.faultWord := rfl
@[simp] theorem State.push_ram (v : Word) : (s.push v).ram = s.ram := rfl
@[simp] theorem State.push_stack (v : Word) : (s.push v).stack = s.stack.write (s.sp + 1).toNat v := rfl
@[simp] theorem State.push_program (v : Word) : (s.push v).program = s.program := rfl

/-! `takeFault` -/

@[simp] theorem State.takeFault_regs (c : FaultCause) (w : Word) : (s.takeFault c w).regs = s.regs := rfl
@[simp] theorem State.takeFault_pc (c : FaultCause) (w : Word) : (s.takeFault c w).pc = s.pc := rfl
@[simp] theorem State.takeFault_sp (c : FaultCause) (w : Word) : (s.takeFault c w).sp = s.sp := rfl
@[simp] theorem State.takeFault_lt (c : FaultCause) (w : Word) : (s.takeFault c w).lt = s.lt := rfl
@[simp] theorem State.takeFault_gt (c : FaultCause) (w : Word) : (s.takeFault c w).gt = s.gt := rfl
@[simp] theorem State.takeFault_faultCause (c : FaultCause) (w : Word) : (s.takeFault c w).faultCause = causeCode c := rfl
@[simp] theorem State.takeFault_faultPc (c : FaultCause) (w : Word) : (s.takeFault c w).faultPc = s.pc := rfl
@[simp] theorem State.takeFault_faultWord (c : FaultCause) (w : Word) : (s.takeFault c w).faultWord = w := rfl
@[simp] theorem State.takeFault_ram (c : FaultCause) (w : Word) : (s.takeFault c w).ram = s.ram := rfl
@[simp] theorem State.takeFault_stack (c : FaultCause) (w : Word) : (s.takeFault c w).stack = s.stack := rfl
@[simp] theorem State.takeFault_program (c : FaultCause) (w : Word) : (s.takeFault c w).program = s.program := rfl

/-! Reads through updates -/

theorem RegFile.get_set_same (f : RegFile) (r : Reg) (v : Word) : (f.set r v).get r = v := by
  cases r <;> rfl

theorem RegFile.get_set_ne (f : RegFile) {r q : Reg} (v : Word) (h : q ≠ r) :
    (f.set r v).get q = f.get q := by
  cases r <;> cases q <;> first | rfl | exact absurd rfl h

@[simp] theorem State.reg_setReg_same (r : Reg) (v : Word) : (s.setReg r v).reg r = v :=
  RegFile.get_set_same ..

theorem State.reg_setReg_ne {r q : Reg} (v : Word) (h : q ≠ r) : (s.setReg r v).reg q = s.reg q :=
  RegFile.get_set_ne _ v h

@[simp] theorem State.ramRead_setReg (r : Reg) (v : Word) (x : Word) : (s.setReg r v).ramRead x = s.ramRead x := rfl
@[simp] theorem State.stackRead_setReg (r : Reg) (v : Word) (x : Word) : (s.setReg r v).stackRead x = s.stackRead x := rfl
@[simp] theorem State.reg_ramWrite (a v : Word) (r : Reg) : (s.ramWrite a v).reg r = s.reg r := rfl
@[simp] theorem State.stackRead_ramWrite (a v : Word) (x : Word) : (s.ramWrite a v).stackRead x = s.stackRead x := rfl
@[simp] theorem State.reg_stackWrite (a v : Word) (r : Reg) : (s.stackWrite a v).reg r = s.reg r := rfl
@[simp] theorem State.ramRead_stackWrite (a v : Word) (x : Word) : (s.stackWrite a v).ramRead x = s.ramRead x := rfl
@[simp] theorem State.reg_advance (n : Nat) (r : Reg) : (s.advance n).reg r = s.reg r := rfl
@[simp] theorem State.ramRead_advance (n : Nat) (x : Word) : (s.advance n).ramRead x = s.ramRead x := rfl
@[simp] theorem State.stackRead_advance (n : Nat) (x : Word) : (s.advance n).stackRead x = s.stackRead x := rfl
@[simp] theorem State.reg_jumpTo (a : Word) (r : Reg) : (s.jumpTo a).reg r = s.reg r := rfl
@[simp] theorem State.ramRead_jumpTo (a : Word) (x : Word) : (s.jumpTo a).ramRead x = s.ramRead x := rfl
@[simp] theorem State.stackRead_jumpTo (a : Word) (x : Word) : (s.jumpTo a).stackRead x = s.stackRead x := rfl
@[simp] theorem State.reg_setFlags (l g : Bool) (r : Reg) : (s.setFlags l g).reg r = s.reg r := rfl
@[simp] theorem State.ramRead_setFlags (l g : Bool) (x : Word) : (s.setFlags l g).ramRead x = s.ramRead x := rfl
@[simp] theorem State.stackRead_setFlags (l g : Bool) (x : Word) : (s.setFlags l g).stackRead x = s.stackRead x := rfl
@[simp] theorem State.reg_setSp (v : Word) (r : Reg) : (s.setSp v).reg r = s.reg r := rfl
@[simp] theorem State.ramRead_setSp (v : Word) (x : Word) : (s.setSp v).ramRead x = s.ramRead x := rfl
@[simp] theorem State.stackRead_setSp (v : Word) (x : Word) : (s.setSp v).stackRead x = s.stackRead x := rfl
@[simp] theorem State.reg_push (v : Word) (r : Reg) : (s.push v).reg r = s.reg r := rfl
@[simp] theorem State.ramRead_push (v : Word) (x : Word) : (s.push v).ramRead x = s.ramRead x := rfl
@[simp] theorem State.reg_takeFault (c : FaultCause) (w : Word) (r : Reg) : (s.takeFault c w).reg r = s.reg r := rfl
@[simp] theorem State.ramRead_takeFault (c : FaultCause) (w : Word) (x : Word) : (s.takeFault c w).ramRead x = s.ramRead x := rfl
@[simp] theorem State.stackRead_takeFault (c : FaultCause) (w : Word) (x : Word) : (s.takeFault c w).stackRead x = s.stackRead x := rfl

end Sys2Proof.Machine
end

