-- ==== Sys2Proof/Laws/Memory.lean ====
section
/-! SUPPORT. The memory laws (20_memory.md R57, R60): a write is read back, leaves every other address alone, and keeps the canonical form. -/

namespace Sys2Proof.Machine

theorem Memory.wf_nil : Memory.wf [] := by simp [Memory.wf]

/-- An address below every listed one reads as unwritten. -/
theorem Memory.read_eq_unwritten {m : Memory} {a : Nat} (h : ∀ c ∈ m, c.1 ≠ a) :
    m.read a = Config.unwritten := by
  induction m with
  | nil => rfl
  | cons c m ih =>
    obtain ⟨k, w⟩ := c
    have hk : k ≠ a := h _ (List.mem_cons_self ..)
    simp only [Memory.read, if_neg hk]
    exact ih fun c hc => h c (List.mem_cons_of_mem _ hc)

/-- A write leaves every other address alone. -/
theorem Memory.read_write_ne (m : Memory) {a b : Nat} (v : Word) (h : b ≠ a) :
    (m.write a v).read b = m.read b := by
  induction m with
  | nil => by_cases hv : v = Config.unwritten <;> simp [Memory.write, Memory.read, hv, h.symm]
  | cons c m ih =>
    obtain ⟨k, w⟩ := c
    unfold Memory.write
    split
    · split <;> simp [Memory.read, h.symm]
    · split
      · rename_i hak
        have hk : k ≠ b := hak ▸ Ne.symm h
        split <;> simp [Memory.read, hk, h.symm]
      · simp only [Memory.read, ih]

/-- A write is read back, whatever the value. -/
theorem Memory.read_write_same {m : Memory} (hm : m.wf) (a : Nat) (v : Word) :
    (m.write a v).read a = v := by
  induction m with
  | nil => by_cases hv : v = Config.unwritten <;> simp [Memory.write, Memory.read, hv]
  | cons c m ih =>
    obtain ⟨k, w⟩ := c
    obtain ⟨hs, hc⟩ := hm
    have hs' := List.pairwise_cons.mp hs
    have habove : ∀ c ∈ m, k < c.1 := hs'.1
    have ih' := ih ⟨hs'.2, fun c h => hc c (List.mem_cons_of_mem _ h)⟩
    unfold Memory.write
    split
    · rename_i hlt
      split
      · rename_i hv
        rw [hv]
        apply Memory.read_eq_unwritten
        intro c hcm
        rcases List.mem_cons.mp hcm with rfl | hcm
        · exact (Nat.ne_of_lt hlt).symm
        · exact (Nat.ne_of_lt (Nat.lt_trans hlt (habove c hcm))).symm
      · simp [Memory.read]
    · split
      · rename_i heq
        split
        · rename_i hv
          rw [hv]
          exact Memory.read_eq_unwritten fun c hcm => by
            have := habove c hcm
            omega
        · simp [Memory.read]
      · rename_i hne
        simp only [Memory.read, if_neg (Ne.symm hne)]
        exact ih'

/-- Every listed address of a written memory is the address written or was listed before. -/
theorem Memory.mem_write {m : Memory} {a : Nat} {v : Word} {c : Nat × Word}
    (h : c ∈ m.write a v) : c ∈ m ∨ (c = (a, v) ∧ v ≠ Config.unwritten) := by
  induction m with
  | nil =>
    by_cases hv : v = Config.unwritten <;> simp [Memory.write, hv] at h
    exact .inr ⟨h, hv⟩
  | cons x m ih =>
    obtain ⟨k, w⟩ := x
    unfold Memory.write at h
    split at h
    · split at h
      · exact .inl h
      · rename_i hv
        rcases List.mem_cons.mp h with rfl | h
        · exact .inr ⟨rfl, hv⟩
        · exact .inl h
    · split at h
      · split at h
        · exact .inl (List.mem_cons_of_mem _ h)
        · rename_i hv
          rcases List.mem_cons.mp h with rfl | h
          · exact .inr ⟨rfl, hv⟩
          · exact .inl (List.mem_cons_of_mem _ h)
      · rcases List.mem_cons.mp h with rfl | h
        · exact .inl (List.mem_cons_self ..)
        · rcases ih h with h | h
          · exact .inl (List.mem_cons_of_mem _ h)
          · exact .inr h

/-- A write at an address of the space keeps the canonical form. -/
theorem Memory.wf_write {m : Memory} (hm : m.wf) {a : Nat} (ha : a < 65536) (v : Word) :
    (m.write a v).wf := by
  refine ⟨?_, ?_⟩
  · induction m with
    | nil => by_cases hv : v = Config.unwritten <;> simp [Memory.write, hv]
    | cons x m ih =>
      obtain ⟨k, w⟩ := x
      obtain ⟨hs, hc⟩ := hm
      have hs' := List.pairwise_cons.mp hs
      have habove : ∀ c ∈ m, k < c.1 := hs'.1
      have ih' := ih ⟨hs'.2, fun c h => hc c (List.mem_cons_of_mem _ h)⟩
      unfold Memory.write
      split
      · rename_i hlt
        split
        · exact hs
        · refine List.pairwise_cons.mpr ⟨?_, hs⟩
          intro c hcm
          rcases List.mem_cons.mp hcm with rfl | hcm
          · exact hlt
          · exact Nat.lt_trans hlt (habove c hcm)
      · split
        · rename_i heq
          split
          · exact hs'.2
          · exact List.pairwise_cons.mpr ⟨fun c hcm => heq ▸ habove c hcm, hs'.2⟩
        · refine List.pairwise_cons.mpr ⟨?_, ih'⟩
          intro c hcm
          rcases Memory.mem_write hcm with h | ⟨rfl, _⟩
          · exact habove c h
          · show k < a
            omega
  · intro c hcm
    rcases Memory.mem_write hcm with h | ⟨rfl, hv⟩
    · exact hm.2 c h
    · exact ⟨ha, hv⟩

/-! The same laws for the two memories of a state -/

theorem State.ramRead_ramWrite_same {s : State} (h : s.ram.wf) (a v : Word) :
    (s.ramWrite a v).ramRead a = v := Memory.read_write_same h _ v

theorem State.ramRead_ramWrite_ne (s : State) {a b : Word} (v : Word) (h : b ≠ a) :
    (s.ramWrite a v).ramRead b = s.ramRead b :=
  Memory.read_write_ne _ v fun e => h (BitVec.eq_of_toNat_eq e)

theorem State.stackRead_stackWrite_same {s : State} (h : s.stack.wf) (a v : Word) :
    (s.stackWrite a v).stackRead a = v := Memory.read_write_same h _ v

theorem State.stackRead_stackWrite_ne (s : State) {a b : Word} (v : Word) (h : b ≠ a) :
    (s.stackWrite a v).stackRead b = s.stackRead b :=
  Memory.read_write_ne _ v fun e => h (BitVec.eq_of_toNat_eq e)

theorem State.stackRead_push_same {s : State} (h : s.stack.wf) (v : Word) :
    (s.push v).stackRead (s.sp + 1) = v := Memory.read_write_same h _ v

theorem State.stackRead_push_ne (s : State) {b : Word} (v : Word) (h : b ≠ s.sp + 1) :
    (s.push v).stackRead b = s.stackRead b :=
  Memory.read_write_ne _ v fun e => h (BitVec.eq_of_toNat_eq e)

theorem State.wf_ramWrite {s : State} (h : s.ram.wf) (a v : Word) : (s.ramWrite a v).ram.wf :=
  Memory.wf_write h a.isLt v

theorem State.wf_push {s : State} (h : s.stack.wf) (v : Word) : (s.push v).stack.wf :=
  Memory.wf_write h (s.sp + 1).isLt v

end Sys2Proof.Machine
end

