-- ==== Sys2Proof/Laws/Ops.lean ====
section
/-! SUPPORT. One lemma per shared operation of the meanings, saying everything it can answer; and once for all instructions, that exec answers a next state and which fault causes it can record. -/

namespace Sys2Proof.Machine

theorem divideStep_cases (op : Word → Word → Word) (i : Instr) (d : Reg) (b : Word) (s : State) :
    (b = 0 ∧ divideStep op i d b s = .next (s.takeFault .divideByZero i.word0)) ∨
    (b ≠ 0 ∧ divideStep op i d b s = .next ((s.setReg d (op (s.reg d) b)).advance 3)) := by
  unfold divideStep
  split
  · exact .inl ⟨‹_›, rfl⟩
  · exact .inr ⟨‹_›, rfl⟩

theorem pushStep_cases (i : Instr) (v : Word) (go : State → State) (s : State) :
    (s.sp = Config.spMax ∧ pushStep i v go s = .next (s.takeFault .stackOverflow i.word0)) ∨
    (s.sp ≠ Config.spMax ∧ pushStep i v go s = .next (go (s.push v))) := by
  unfold pushStep
  split
  · exact .inl ⟨‹_›, rfl⟩
  · exact .inr ⟨‹_›, rfl⟩

theorem execPop_cases (d : Reg) (s : State) :
    (s.sp = 0 ∧ execPop d s = .next (s.takeFault .stackUnderflow (Instr.pop d).word0)) ∨
    (s.sp ≠ 0 ∧ execPop d s =
      .next (((s.setReg d (s.stackRead s.sp)).setSp (s.sp - 1)).advance 2)) := by
  unfold execPop
  split
  · exact .inl ⟨‹_›, rfl⟩
  · exact .inr ⟨‹_›, rfl⟩

theorem jumpStep_cases (taken : Bool) (t : Word) (s : State) :
    (taken = true ∧ jumpStep taken t s = .next (s.jumpTo t)) ∨
    (taken = false ∧ jumpStep taken t s = .next (s.advance 2)) := by
  cases taken
  · exact .inr ⟨rfl, rfl⟩
  · exact .inl ⟨rfl, rfl⟩

theorem execRet_eq (s : State) : execRet s = .next (s.jumpTo (s.stackRead s.sp)) := rfl

/-- A push that is not turned away does not wrap the stack pointer. -/
theorem sp_succ_toNat {s : State} (h : s.sp ≠ Config.spMax) :
    (s.sp + 1).toNat = s.sp.toNat + 1 := by
  have h1 : s.sp.toNat ≠ 65535 := fun e => h (BitVec.eq_of_toNat_eq e)
  have h2 := s.sp.isLt
  rw [BitVec.toNat_add]
  show (s.sp.toNat + 1) % 65536 = s.sp.toNat + 1
  omega

/-- What an instruction can do, once for all of them: it takes an execution fault, or it writes a
register, a RAM word, the flags or a pushed word, or moves `pc` alone; `n` is the advance. -/
inductive Effect (i : Instr) (s : State) : State → Prop where
  | fault (c : FaultCause) (hc : c = .divideByZero ∨ c = .stackOverflow ∨ c = .stackUnderflow) :
    Effect i s (s.takeFault c i.word0)
  | reg (d : Reg) (v : Word) (hd : i.raw.operands[0]? = some d.ordinal)
    (ho : i.raw.op ∈ registerWriters) (hm : i.raw.op = .MOV → i.raw.mode = .INDIRECT)
    (hn : i.raw.op ≠ .POP) :
    Effect i s ((s.setReg d v).advance i.length)
  | ram (p : Reg) (v : Word) (hp : i.raw.operands[0]? = some p.ordinal) (ho : i.raw.op = .MOV)
    (hm : i.raw.mode ≠ .INDIRECT) : Effect i s ((s.ramWrite (s.reg p) v).advance i.length)
  | flags (a b : Word) (ho : i.raw.op = .CMP) :
    Effect i s ((s.setFlags (cmpLess a b) (cmpGreater a b)).advance i.length)
  | pushed (v : Word) (ho : i.raw.op = .PUSH) (hs : s.sp ≠ Config.spMax) :
    Effect i s ((s.push v).advance i.length)
  | called (x : Word) (ho : i = .call x) (hs : s.sp ≠ Config.spMax) :
    Effect i s ((s.push (trunc16 (uval s.pc + 2))).jumpTo x)
  | popped (d : Reg) (ho : i = .pop d) (hs : s.sp ≠ 0) :
    Effect i s (((s.setReg d (s.stackRead s.sp)).setSp (s.sp - 1)).advance i.length)
  | jump (x : Word)
    (ho : i.raw.op ∈ transfers) (hn : i.raw.op ≠ .CALL) :
    Effect i s (s.jumpTo x)
  | fall (ho : i.raw.op ∈ conditionalJumps) :
    Effect i s (s.advance i.length)

theorem effect_divide (op : Word → Word → Word) {i : Instr} {d : Reg} (b : Word) (s : State)
    (hd : i.raw.operands[0]? = some d.ordinal) (hl : i.length = 3)
    (ho : i.raw.op = .DIV ∨ i.raw.op = .MOD) :
    ∃ t, divideStep op i d b s = .next t ∧ Effect i s t := by
  rcases divideStep_cases op i d b s with ⟨_, h⟩ | ⟨_, h⟩
  · exact ⟨_, h, .fault _ (.inl rfl)⟩
  · refine ⟨_, h, hl ▸ .reg d _ hd ?_ ?_ ?_⟩ <;>
      rcases ho with ho | ho <;> simp [ho, registerWriters]

theorem effect_push {i : Instr} (v : Word) (s : State) (ho : i.raw.op = .PUSH)
    (hl : i.length = 2) :
    ∃ t, pushStep i v (fun t => t.advance 2) s = .next t ∧ Effect i s t := by
  rcases pushStep_cases i v (fun t => t.advance 2) s with ⟨_, h⟩ | ⟨hs, h⟩
  · exact ⟨_, h, .fault _ (.inr (.inl rfl))⟩
  · exact ⟨_, h, hl ▸ .pushed v ho hs⟩

theorem effect_jump {i : Instr} (taken : Bool) (x : Word) (s : State) (hl : i.length = 2)
    (ho : i.raw.op ∈ conditionalJumps) :
    ∃ t, jumpStep taken x s = .next t ∧ Effect i s t := by
  rcases jumpStep_cases taken x s with ⟨_, h⟩ | ⟨_, h⟩
  · refine ⟨_, h, .jump x ?_ ?_⟩
    · simp only [conditionalJumps, transfers, List.mem_cons] at ho ⊢
      tauto
    · rintro e
      simp [e, conditionalJumps] at ho
  · exact ⟨_, h, hl ▸ .fall ho⟩

/-- Every instruction answers a next state, and does one of the things `Effect` lists. -/
theorem exec_effect (i : Instr) (s : State) : ∃ t, exec i s = .next t ∧ Effect i s t := by
  cases i with
  | ldReg d r => exact ⟨_, rfl, .reg d _ rfl (by simp [Instr.raw, registerWriters]) (by simp [Instr.raw])
      (by simp [Instr.raw])⟩
  | ldImm d k => exact ⟨_, rfl, .reg d _ rfl (by simp [Instr.raw, registerWriters]) (by simp [Instr.raw])
      (by simp [Instr.raw])⟩
  | movStoreReg p r => exact ⟨_, rfl, .ram p _ rfl rfl (by simp [Instr.raw])⟩
  | movStoreImm p k => exact ⟨_, rfl, .ram p _ rfl rfl (by simp [Instr.raw])⟩
  | movLoad d p => exact ⟨_, rfl, .reg d _ rfl (by simp [Instr.raw, registerWriters]) (by simp [Instr.raw])
      (by simp [Instr.raw])⟩
  | addReg d r => exact ⟨_, rfl, .reg d _ rfl (by simp [Instr.raw, registerWriters]) (by simp [Instr.raw])
      (by simp [Instr.raw])⟩
  | addImm d k => exact ⟨_, rfl, .reg d _ rfl (by simp [Instr.raw, registerWriters]) (by simp [Instr.raw])
      (by simp [Instr.raw])⟩
  | subReg d r => exact ⟨_, rfl, .reg d _ rfl (by simp [Instr.raw, registerWriters]) (by simp [Instr.raw])
      (by simp [Instr.raw])⟩
  | subImm d k => exact ⟨_, rfl, .reg d _ rfl (by simp [Instr.raw, registerWriters]) (by simp [Instr.raw])
      (by simp [Instr.raw])⟩
  | mulReg d r => exact ⟨_, rfl, .reg d _ rfl (by simp [Instr.raw, registerWriters]) (by simp [Instr.raw])
      (by simp [Instr.raw])⟩
  | mulImm d k => exact ⟨_, rfl, .reg d _ rfl (by simp [Instr.raw, registerWriters]) (by simp [Instr.raw])
      (by simp [Instr.raw])⟩
  | divReg d r => exact effect_divide _ _ s rfl rfl (.inl rfl)
  | divImm d k => exact effect_divide _ _ s rfl rfl (.inl rfl)
  | modReg d r => exact effect_divide _ _ s rfl rfl (.inr rfl)
  | modImm d k => exact effect_divide _ _ s rfl rfl (.inr rfl)
  | inc d => exact ⟨_, rfl, .reg d _ rfl (by simp [Instr.raw, registerWriters]) (by simp [Instr.raw])
      (by simp [Instr.raw])⟩
  | andReg d r => exact ⟨_, rfl, .reg d _ rfl (by simp [Instr.raw, registerWriters]) (by simp [Instr.raw])
      (by simp [Instr.raw])⟩
  | andImm d k => exact ⟨_, rfl, .reg d _ rfl (by simp [Instr.raw, registerWriters]) (by simp [Instr.raw])
      (by simp [Instr.raw])⟩
  | orReg d r => exact ⟨_, rfl, .reg d _ rfl (by simp [Instr.raw, registerWriters]) (by simp [Instr.raw])
      (by simp [Instr.raw])⟩
  | orImm d k => exact ⟨_, rfl, .reg d _ rfl (by simp [Instr.raw, registerWriters]) (by simp [Instr.raw])
      (by simp [Instr.raw])⟩
  | xorReg d r => exact ⟨_, rfl, .reg d _ rfl (by simp [Instr.raw, registerWriters]) (by simp [Instr.raw])
      (by simp [Instr.raw])⟩
  | xorImm d k => exact ⟨_, rfl, .reg d _ rfl (by simp [Instr.raw, registerWriters]) (by simp [Instr.raw])
      (by simp [Instr.raw])⟩
  | notReg d r => exact ⟨_, rfl, .reg d _ rfl (by simp [Instr.raw, registerWriters]) (by simp [Instr.raw])
      (by simp [Instr.raw])⟩
  | notImm d k => exact ⟨_, rfl, .reg d _ rfl (by simp [Instr.raw, registerWriters]) (by simp [Instr.raw])
      (by simp [Instr.raw])⟩
  | shlReg d r => exact ⟨_, rfl, .reg d _ rfl (by simp [Instr.raw, registerWriters]) (by simp [Instr.raw])
      (by simp [Instr.raw])⟩
  | shlImm d k => exact ⟨_, rfl, .reg d _ rfl (by simp [Instr.raw, registerWriters]) (by simp [Instr.raw])
      (by simp [Instr.raw])⟩
  | shrReg d r => exact ⟨_, rfl, .reg d _ rfl (by simp [Instr.raw, registerWriters]) (by simp [Instr.raw])
      (by simp [Instr.raw])⟩
  | shrImm d k => exact ⟨_, rfl, .reg d _ rfl (by simp [Instr.raw, registerWriters]) (by simp [Instr.raw])
      (by simp [Instr.raw])⟩
  | jmp x => exact ⟨_, rfl, .jump x (by simp [Instr.raw, transfers]) (by simp [Instr.raw])⟩
  | jeq x => exact effect_jump _ x s rfl (by simp [Instr.raw, conditionalJumps])
  | jne x => exact effect_jump _ x s rfl (by simp [Instr.raw, conditionalJumps])
  | jgt x => exact effect_jump _ x s rfl (by simp [Instr.raw, conditionalJumps])
  | jge x => exact effect_jump _ x s rfl (by simp [Instr.raw, conditionalJumps])
  | jlt x => exact effect_jump _ x s rfl (by simp [Instr.raw, conditionalJumps])
  | jle x => exact effect_jump _ x s rfl (by simp [Instr.raw, conditionalJumps])
  | call x =>
    rcases pushStep_cases (Instr.call x) (trunc16 (uval s.pc + 2)) (fun u => u.jumpTo x) s with
      ⟨_, h⟩ | ⟨hs, h⟩
    · exact ⟨_, h, .fault _ (.inr (.inl rfl))⟩
    · exact ⟨_, h, .called x rfl hs⟩
  | ret => exact ⟨_, rfl, .jump _ (by simp [Instr.raw, transfers]) (by simp [Instr.raw])⟩
  | cmpReg d r => exact ⟨_, rfl, .flags _ _ rfl⟩
  | cmpImm d k => exact ⟨_, rfl, .flags _ _ rfl⟩
  | pushReg r => exact effect_push _ s rfl rfl
  | pushImm k => exact effect_push _ s rfl rfl
  | pop d =>
    rcases execPop_cases d s with ⟨_, h⟩ | ⟨hs, h⟩
    · exact ⟨_, h, .fault _ (.inr (.inr rfl))⟩
    · exact ⟨_, h, .popped d rfl hs⟩

/-- The inversion lemma of exec: what its answer can be. -/
theorem exec_inv {i : Instr} {s t : State} (h : exec i s = .next t) : Effect i s t := by
  obtain ⟨u, hu, he⟩ := exec_effect i s
  rw [hu] at h
  cases h
  exact he

/-- No instruction writes the Program. -/
theorem exec_program {i : Instr} {s t : State} (h : exec i s = .next t) :
    t.program = s.program := by
  cases exec_inv h <;> rfl

/-- The cause after an instruction: as before, or one of the three execution faults, and then nothing
but the record is written. -/
theorem exec_cause {i : Instr} {s t : State} (h : exec i s = .next t) :
    t.faultCause = s.faultCause ∨
      (∃ c, (c = .divideByZero ∨ c = .stackOverflow ∨ c = .stackUnderflow) ∧
        t = s.takeFault c i.word0) := by
  cases exec_inv h with
  | fault c hc => exact .inr ⟨c, hc, rfl⟩
  | _ => exact .inl rfl

end Sys2Proof.Machine
end

