-- ==== Sys2Proof/Laws/Frames.lean ====
section
/-! SUPPORT. How the frames of Safety.lean follow from the state that exec answers. -/

namespace Sys2Proof.Machine

theorem frame_setReg (s : State) (d : Reg) (v : Word) (n : Nat) :
    Frame s ((s.setReg d v).advance n) (fun r => r = d) (fun _ => False) (fun _ => False) :=
  ⟨fun _ h => State.reg_setReg_ne s v h, fun _ _ => rfl, fun _ _ => rfl, rfl, rfl, rfl, rfl⟩

theorem regWritten_of_exec {i : Instr} {s : State} {d : Reg} {v : Word} {n : Nat}
    (h : exec i s = .next ((s.setReg d v).advance n)) : RegWritten i s d v n :=
  ⟨_, h, State.reg_setReg_same .., rfl, rfl, ⟨rfl, rfl⟩, frame_setReg s d v n⟩

theorem ramWritten_of_exec {i : Instr} {s : State} {p : Reg} {v : Word} (hw : s.ram.wf)
    (h : exec i s = .next ((s.ramWrite (s.reg p) v).advance 3)) : RamWritten i s p v :=
  ⟨_, h, rfl, State.ramRead_ramWrite_same hw _ _, rfl, rfl, ⟨rfl, rfl⟩, fun _ _ => rfl,
    fun _ h => State.ramRead_ramWrite_ne s v h, fun _ _ => rfl, rfl, rfl, rfl, rfl⟩

theorem regWritten_of_divide {op : Word → Word → Word} {i : Instr} {d : Reg} {b : Word} {s : State}
    (hb : b ≠ 0) (h : exec i s = divideStep op i d b s) :
    RegWritten i s d (op (s.reg d) b) 3 := by
  rcases divideStep_cases op i d b s with ⟨h0, _⟩ | ⟨_, h1⟩
  · exact absurd h0 hb
  · exact regWritten_of_exec (h.trans h1)

/-- The return address of CALL, as a word. -/
theorem trunc16_pc_add_two (w : Word) : trunc16 (uval w + 2) = w + 2 := by
  apply BitVec.eq_of_toNat_eq
  have := uval_trunc16 ((uval w : Int) + 2)
  rw [BitVec.toNat_add]
  show _ = (w.toNat + 2) % 65536
  simp only [uval] at *
  omega

theorem pushed_of_exec {i : Instr} {v : Word} {go : State → State} {s : State} {target : Word}
    (hw : s.stack.wf) (h : uval s.sp < 65535) (he : exec i s = pushStep i v go s)
    (hg : go (s.push v) = { s.push v with pc := target }) : Pushed i s v target := by
  rcases pushStep_cases i v go s with ⟨h0, _⟩ | ⟨h0, h1⟩
  · rw [h0] at h
    simp [Config.spMax] at h
  · rw [hg] at h1
    exact ⟨_, he.trans h1, rfl, sp_succ_toNat h0, State.stackRead_push_same hw v, rfl, ⟨rfl, rfl⟩,
      fun _ _ => rfl, fun _ _ => rfl, fun _ h => State.stackRead_push_ne s v h, rfl, rfl, rfl, rfl⟩

end Sys2Proof.Machine
end

