-- ==== Sys2Proof/Laws/PerInstr.lean ====
section
/-! SUPPORT. Laws made per instruction: EncodingWellFormed says that the pair and operand words of an instruction are a row of the opcode table, well formed by the checks of WellFormed (30_encoding.md R85, R87). -/

/-- The raw form of the instruction is well formed. -/
def Sys2Proof.Laws.EncodingWellFormed.Statement (i : Sys2Proof.Instr) : Prop :=
  i.raw.wellFormed = true

namespace Sys2Proof

theorem OperandKind.admits_ordinal (r : Reg) :
    OperandKind.r.admits r.ordinal = true ∧ OperandKind.p.admits r.ordinal = true := by
  cases r <;> decide

/-- One operand word that fits its kind, for a pair with that one kind. -/
theorem RawInstr.wellFormed_one {op : Opcode} {m : Mode} {kd : OperandKind} {w : Word}
    (hk : operandKinds op m = some [kd]) (hw : kd.admits w = true) :
    (RawInstr.mk op m [w]).wellFormed = true := by
  simp [RawInstr.wellFormed, hk, operandsFit, hw]

/-- Two operand words that fit their kinds, for a pair with those two kinds. -/
theorem RawInstr.wellFormed_two {op : Opcode} {m : Mode} {k1 k2 : OperandKind} {w1 w2 : Word}
    (hk : operandKinds op m = some [k1, k2]) (h1 : k1.admits w1 = true) (h2 : k2.admits w2 = true) :
    (RawInstr.mk op m [w1, w2]).wellFormed = true := by
  simp [RawInstr.wellFormed, hk, operandsFit, h1, h2]

namespace Laws.EncodingWellFormed

open OperandKind (admits_ordinal)

theorem ldReg (d s : Reg) : Statement (.ldReg d s) :=
  RawInstr.wellFormed_two rfl (admits_ordinal d).1 (admits_ordinal s).1

theorem ldImm (d : Reg) (k : Word) : Statement (.ldImm d k) :=
  RawInstr.wellFormed_two rfl (admits_ordinal d).1 rfl

theorem movStoreReg (p s : Reg) : Statement (.movStoreReg p s) :=
  RawInstr.wellFormed_two rfl (admits_ordinal p).2 (admits_ordinal s).1

theorem movStoreImm (p : Reg) (k : Word) : Statement (.movStoreImm p k) :=
  RawInstr.wellFormed_two rfl (admits_ordinal p).2 rfl

theorem movLoad (d p : Reg) : Statement (.movLoad d p) :=
  RawInstr.wellFormed_two rfl (admits_ordinal d).1 (admits_ordinal p).2

theorem addReg (d s : Reg) : Statement (.addReg d s) :=
  RawInstr.wellFormed_two rfl (admits_ordinal d).1 (admits_ordinal s).1

theorem addImm (d : Reg) (k : Word) : Statement (.addImm d k) :=
  RawInstr.wellFormed_two rfl (admits_ordinal d).1 rfl

theorem subReg (d s : Reg) : Statement (.subReg d s) :=
  RawInstr.wellFormed_two rfl (admits_ordinal d).1 (admits_ordinal s).1

theorem subImm (d : Reg) (k : Word) : Statement (.subImm d k) :=
  RawInstr.wellFormed_two rfl (admits_ordinal d).1 rfl

theorem mulReg (d s : Reg) : Statement (.mulReg d s) :=
  RawInstr.wellFormed_two rfl (admits_ordinal d).1 (admits_ordinal s).1

theorem mulImm (d : Reg) (k : Word) : Statement (.mulImm d k) :=
  RawInstr.wellFormed_two rfl (admits_ordinal d).1 rfl

theorem divReg (d s : Reg) : Statement (.divReg d s) :=
  RawInstr.wellFormed_two rfl (admits_ordinal d).1 (admits_ordinal s).1

theorem divImm (d : Reg) (k : Word) : Statement (.divImm d k) :=
  RawInstr.wellFormed_two rfl (admits_ordinal d).1 rfl

theorem modReg (d s : Reg) : Statement (.modReg d s) :=
  RawInstr.wellFormed_two rfl (admits_ordinal d).1 (admits_ordinal s).1

theorem modImm (d : Reg) (k : Word) : Statement (.modImm d k) :=
  RawInstr.wellFormed_two rfl (admits_ordinal d).1 rfl

theorem inc (d : Reg) : Statement (.inc d) :=
  RawInstr.wellFormed_one rfl (admits_ordinal d).1

theorem andReg (d s : Reg) : Statement (.andReg d s) :=
  RawInstr.wellFormed_two rfl (admits_ordinal d).1 (admits_ordinal s).1

theorem andImm (d : Reg) (k : Word) : Statement (.andImm d k) :=
  RawInstr.wellFormed_two rfl (admits_ordinal d).1 rfl

theorem orReg (d s : Reg) : Statement (.orReg d s) :=
  RawInstr.wellFormed_two rfl (admits_ordinal d).1 (admits_ordinal s).1

theorem orImm (d : Reg) (k : Word) : Statement (.orImm d k) :=
  RawInstr.wellFormed_two rfl (admits_ordinal d).1 rfl

theorem xorReg (d s : Reg) : Statement (.xorReg d s) :=
  RawInstr.wellFormed_two rfl (admits_ordinal d).1 (admits_ordinal s).1

theorem xorImm (d : Reg) (k : Word) : Statement (.xorImm d k) :=
  RawInstr.wellFormed_two rfl (admits_ordinal d).1 rfl

theorem notReg (d s : Reg) : Statement (.notReg d s) :=
  RawInstr.wellFormed_two rfl (admits_ordinal d).1 (admits_ordinal s).1

theorem notImm (d : Reg) (k : Word) : Statement (.notImm d k) :=
  RawInstr.wellFormed_two rfl (admits_ordinal d).1 rfl

theorem shlReg (d s : Reg) : Statement (.shlReg d s) :=
  RawInstr.wellFormed_two rfl (admits_ordinal d).1 (admits_ordinal s).1

theorem shlImm (d : Reg) (k : Word) : Statement (.shlImm d k) :=
  RawInstr.wellFormed_two rfl (admits_ordinal d).1 rfl

theorem shrReg (d s : Reg) : Statement (.shrReg d s) :=
  RawInstr.wellFormed_two rfl (admits_ordinal d).1 (admits_ordinal s).1

theorem shrImm (d : Reg) (k : Word) : Statement (.shrImm d k) :=
  RawInstr.wellFormed_two rfl (admits_ordinal d).1 rfl

theorem jmp (t : Word) : Statement (.jmp t) :=
  RawInstr.wellFormed_one rfl rfl

theorem jeq (t : Word) : Statement (.jeq t) :=
  RawInstr.wellFormed_one rfl rfl

theorem jne (t : Word) : Statement (.jne t) :=
  RawInstr.wellFormed_one rfl rfl

theorem jgt (t : Word) : Statement (.jgt t) :=
  RawInstr.wellFormed_one rfl rfl

theorem jge (t : Word) : Statement (.jge t) :=
  RawInstr.wellFormed_one rfl rfl

theorem jlt (t : Word) : Statement (.jlt t) :=
  RawInstr.wellFormed_one rfl rfl

theorem jle (t : Word) : Statement (.jle t) :=
  RawInstr.wellFormed_one rfl rfl

theorem call (t : Word) : Statement (.call t) :=
  RawInstr.wellFormed_one rfl rfl

theorem ret : Statement .ret :=
  rfl

theorem cmpReg (d s : Reg) : Statement (.cmpReg d s) :=
  RawInstr.wellFormed_two rfl (admits_ordinal d).1 (admits_ordinal s).1

theorem cmpImm (d : Reg) (k : Word) : Statement (.cmpImm d k) :=
  RawInstr.wellFormed_two rfl (admits_ordinal d).1 rfl

theorem pushReg (s : Reg) : Statement (.pushReg s) :=
  RawInstr.wellFormed_one rfl (admits_ordinal s).1

theorem pushImm (k : Word) : Statement (.pushImm k) :=
  RawInstr.wellFormed_one rfl rfl

theorem pop (d : Reg) : Statement (.pop d) :=
  RawInstr.wellFormed_one rfl (admits_ordinal d).1

end Laws.EncodingWellFormed

end Sys2Proof
end

