-- ==== Sys2Proof/Laws/Step.lean ====
section
/-! SUPPORT. What one step can do, said once: a step answers a next state only from a running state, and then it runs the decoded instruction or records the decoder's rejection. -/

namespace Sys2Proof.Machine

theorem programWellFormed_iff (p : List Word) :
    programWellFormed p = true ↔ p.length ≤ 65535 :=
  decide_eq_true_iff

/-- A step where the words at `pc` are `w0` and then `rest`. -/
theorem step_of_ready {s : State} {w0 : Word} {rest : List Word} (h : ReadyAt s w0 rest) :
    step s = match decode w0 rest with
      | .ok i => exec i s
      | .bad r => .next (s.takeFault (rejectCause r) w0) := by
  obtain ⟨hl, hc, hp⟩ := h
  have hf : s.faulted = false := by simp [State.faulted, hc]
  simp only [step, (programWellFormed_iff _).mpr hl, hf, State.fetchDecode, State.fetchWords, hp]
  cases decode w0 rest <;> rfl

/-- The inversion lemma of step. -/
theorem step_cases {s t : State} (h : step s = .next t) :
    ∃ w0 rest, ReadyAt s w0 rest ∧
      ((∃ i, decode w0 rest = .ok i ∧ exec i s = .next t) ∨
       (∃ r, decode w0 rest = .bad r ∧ t = s.takeFault (rejectCause r) w0)) := by
  unfold step at h
  split at h
  · rename_i hw
    split at h
    · cases h
    · rename_i hf
      have hc : s.faultCause = 0 := by simpa [State.faulted] using hf
      unfold State.fetchDecode at h
      cases hp : s.fetchWords with
      | nil => rw [hp] at h; cases h
      | cons w0 rest =>
        rw [hp] at h
        refine ⟨w0, rest, ⟨(programWellFormed_iff _).mp hw, hc, hp⟩, ?_⟩
        cases hd : decode w0 rest with
        | ok i => simp only [hd] at h; exact .inl ⟨i, rfl, h⟩
        | bad r =>
          simp only [hd] at h
          cases h
          exact .inr ⟨r, rfl, rfl⟩
  · cases h

/-- The word at `pc` of a ready machine. -/
theorem word_of_ready {s : State} {w0 : Word} {rest : List Word} (h : ReadyAt s w0 rest) :
    s.program[uval s.pc]? = some w0 := by
  have := congrArg (fun l => l[0]?) h.2.2
  simpa using this

/-- The Program reaches past the words at `pc`. -/
theorem length_of_ready {s : State} {w0 : Word} {rest : List Word} (h : ReadyAt s w0 rest) :
    s.program.length = uval s.pc + 1 + rest.length := by
  have := congrArg List.length h.2.2
  simp at this
  omega

/-- A step at words the decoder rejects takes the fault of that rejection. -/
theorem step_of_bad {s : State} {w0 : Word} {rest : List Word} {r : Reject}
    (h : ReadyAt s w0 rest) (hd : decode w0 rest = .bad r) :
    step s = .next (afterFault s (causeCode (rejectCause r)) w0) := by
  rw [step_of_ready h, hd]
  rfl

end Sys2Proof.Machine
end

