-- ==== Sys2Proof/Tests/Slice0.lean ====
section
/-! SUPPORT. Tests on fixed values, taken from the vectors of spec/95_test_vectors.md (V<n>, S<n>) and the words of 30_encoding.md R87, and one witness for the hypotheses of each statement that has any. -/

namespace Sys2Proof.Tests

open Sys2Proof Sys2Proof.Machine

/-- The reset state with `A = a` and `B = b`, and a Program. -/
def start (a b : Word) (p : List Word) : State :=
  { State.reset with regs := ⟨a, b, 0, 0, 0, 0, 0, 0⟩, program := p }

/-- The same with a stack: `sp`, and the words of STACK. -/
def startStack (a sp : Word) (m : Memory) (p : List Word) : State :=
  { start a 0 p with sp := sp, stack := m }

/-- The state a step ends in, if it ends in one. -/
def after : Result → Option State
  | .next t => some t
  | .fault _ => none
  | .refused _ => none

/-- `A`, `B`, `pc` and both flags of that state. -/
def view (r : Result) : Option (Word × Word × Word × Bool × Bool) :=
  (after r).map fun t => (t.reg .A, t.reg .B, t.pc, t.lt, t.gt)

/-- `pc`, `sp` and the STACK of that state. -/
def viewStack (r : Result) : Option (Word × Word × Memory) :=
  (after r).map fun t => (t.pc, t.sp, t.stack)

/-- The fault record and `pc` of that state. -/
def viewFault (r : Result) : Option (BitVec 4 × Word × Word × Word) :=
  (after r).map fun t => (t.faultCause, t.faultPc, t.faultWord, t.pc)

/-! ## WellFormed refuses ill-formed terms -/

theorem test_program_of_65535_words_accepted :
    programWellFormed (List.replicate 65535 0x1600) = true := by
  rw [programWellFormed_iff, List.length_replicate]

theorem test_program_of_65536_words_refused :
    programWellFormed (List.replicate 65536 0x1600) = false := by
  rw [← Bool.not_eq_true, programWellFormed_iff, List.length_replicate]
  decide

theorem test_raw_accepts_highest_register :
    (RawInstr.mk .LD .REGISTER [7, 7]).wellFormed = true := by decide

theorem test_raw_refuses_illegal_pair :
    (RawInstr.mk .LD .IMPLIED []).wellFormed = false := by decide

theorem test_raw_refuses_missing_operand :
    (RawInstr.mk .LD .IMMEDIATE [0]).wellFormed = false := by decide

theorem test_raw_refuses_extra_operand : (RawInstr.mk .RET .IMPLIED [0]).wellFormed = false := by
  decide

theorem test_raw_refuses_register_eight_in_w1 :
    (RawInstr.mk .LD .REGISTER [8, 0]).wellFormed = false := by decide

theorem test_raw_refuses_register_eight_in_w2 :
    (RawInstr.mk .LD .REGISTER [0, 8]).wellFormed = false := by decide

theorem test_raw_refuses_pointer_eight :
    (RawInstr.mk .MOV .INDIRECT [0, 8]).wellFormed = false := by decide

/-! ## Every constructor, from the words of R87 with its operands written out (R22, R85) -/

theorem test_decode_move_load :
    decode 0x0001 [0, 7] = .ok (.ldReg .A .H) ∧
    decode 0x0002 [1, 0x0010] = .ok (.ldImm .B 0x0010) ∧
    decode 0x0101 [3, 0] = .ok (.movStoreReg .D .A) ∧
    decode 0x0102 [2, 0xBEEF] = .ok (.movStoreImm .C 0xBEEF) ∧
    decode 0x0103 [4, 3] = .ok (.movLoad .E .D) := by decide

theorem test_decode_arithmetic :
    decode 0x0201 [0, 1] = .ok (.addReg .A .B) ∧
    decode 0x0202 [0, 1] = .ok (.addImm .A 1) ∧
    decode 0x0301 [5, 6] = .ok (.subReg .F .G) ∧
    decode 0x0302 [1, 5] = .ok (.subImm .B 5) ∧
    decode 0x0401 [0, 1] = .ok (.mulReg .A .B) ∧
    decode 0x0402 [0, 3] = .ok (.mulImm .A 3) ∧
    decode 0x0501 [0, 2] = .ok (.divReg .A .C) ∧
    decode 0x0502 [0, 0xFFFE] = .ok (.divImm .A 0xFFFE) ∧
    decode 0x0601 [0, 1] = .ok (.modReg .A .B) ∧
    decode 0x0602 [0, 4] = .ok (.modImm .A 4) ∧
    decode 0x0700 [1] = .ok (.inc .B) := by decide

theorem test_decode_bitwise :
    decode 0x0801 [7, 0] = .ok (.andReg .H .A) ∧
    decode 0x0802 [0, 0xFF00] = .ok (.andImm .A 0xFF00) ∧
    decode 0x0901 [0, 1] = .ok (.orReg .A .B) ∧
    decode 0x0902 [0, 1] = .ok (.orImm .A 1) ∧
    decode 0x0A01 [0, 1] = .ok (.xorReg .A .B) ∧
    decode 0x0A02 [0, 0xFFFF] = .ok (.xorImm .A 0xFFFF) ∧
    decode 0x0B01 [1, 0] = .ok (.notReg .B .A) ∧
    decode 0x0B02 [0, 0] = .ok (.notImm .A 0) ∧
    decode 0x0C01 [0, 1] = .ok (.shlReg .A .B) ∧
    decode 0x0C02 [0, 4] = .ok (.shlImm .A 4) ∧
    decode 0x0D01 [0, 1] = .ok (.shrReg .A .B) ∧
    decode 0x0D02 [0, 0x0014] = .ok (.shrImm .A 0x0014) := by decide

theorem test_decode_control :
    decode 0x0E00 [0x0011] = .ok (.jmp 17) ∧
    decode 0x0F00 [0x0064] = .ok (.jeq 100) ∧
    decode 0x1000 [0x0064] = .ok (.jne 100) ∧
    decode 0x1100 [0x0064] = .ok (.jgt 100) ∧
    decode 0x1200 [0x0064] = .ok (.jge 100) ∧
    decode 0x1300 [0x0064] = .ok (.jlt 100) ∧
    decode 0x1400 [0x0064] = .ok (.jle 100) ∧
    decode 0x1500 [0x0028] = .ok (.call 40) ∧
    decode 0x1600 [] = .ok (.ret) := by decide

theorem test_decode_compare_stack :
    decode 0x1701 [0, 1] = .ok (.cmpReg .A .B) ∧
    decode 0x1702 [0, 0xFFFF] = .ok (.cmpImm .A 0xFFFF) ∧
    decode 0x1801 [0] = .ok (.pushReg .A) ∧
    decode 0x1802 [0x0008] = .ok (.pushImm 8) ∧
    decode 0x1900 [2] = .ok (.pop .C) := by decide

/-- The words after an instruction are not its own. -/
theorem test_decode_ignores_what_follows : decode 0x1600 [0xFFFF, 0x1A00] = .ok .ret := by decide

/-- Each failing check of R88, at its boundary (V2 to V9, V11 to V15, V29, V57, V116). -/
theorem test_decode_rejections :
    decode 0x1A00 [] = .bad .illegalOpcode ∧ decode 0xFFFF [] = .bad .illegalOpcode ∧
    decode 0x0004 [] = .bad .illegalMode ∧ decode 0x19FF [] = .bad .illegalMode ∧
    decode 0x0000 [] = .bad .illegalPair ∧ decode 0x1601 [] = .bad .illegalPair ∧
    decode 0x0003 [] = .bad .illegalPair ∧ decode 0x0100 [0, 0] = .bad .illegalPair ∧
    decode 0x0701 [0, 0] = .bad .illegalPair ∧
    decode 0x0002 [0] = .bad .truncated ∧ decode 0x0E00 [] = .bad .truncated ∧
    decode 0x0001 [8] = .bad .truncated ∧
    decode 0x0001 [8, 0] = .bad .badRegisterW1 ∧ decode 0x0001 [0, 0xFFFF] = .bad .badRegisterW2 ∧
    decode 0x0501 [9, 1] = .bad .badRegisterW1 ∧ decode 0x0103 [0, 8] = .bad .badRegisterW2 ∧
    decode 0x1801 [8] = .bad .badRegisterW1 := by decide

/-- V13: a literal of 0xFFFF is no register. -/
theorem test_decode_literal_is_not_checked :
    decode 0x0002 [0, 0xFFFF] = .ok (.ldImm .A 0xFFFF) := by decide

theorem test_encode_words : encode (.movLoad .E .D) = [0x0103, 4, 3] ∧ encode .ret = [0x1600] := by
  decide

/-- The table numbers the second word as bits 31..16 and the third as bits 47..32. -/
theorem test_table_word : decodeTableWord 48 0x000300040103 = some (.movLoad .E .D) ∧
    decodeTableWord 16 0x1600 = some .ret ∧ decodeTableWord 16 0x0002 = some (.ldImm .A 0) ∧
    decodeTableWord 16 0x1A00 = none := by decide

theorem test_placed_word_runs :
    view (step (State.reset.withFetchWord 48 0x000500010202)) = some (0, 5, 3, false, false) := by
  decide

/-! ## One step of each instruction (95_test_vectors.md, part 2) -/

/-- V20. -/
theorem test_ld_imm :
    view (step (start 0 0 [0x0002, 1, 0x0010])) = some (0, 0x0010, 3, false, false) := by
  decide

/-- V21, with B for C. -/
theorem test_ld_reg :
    view (step (start 0x1234 0 [0x0001, 1, 0])) = some (0x1234, 0x1234, 3, false, false) := by
  decide

/-- V23, with B for D: the store. -/
theorem test_mov_store_reg :
    (after (step (start 0x0037 0x0100 [0x0101, 1, 0]))).map (fun t => (t.ram, t.pc)) =
      some ([(0x0100, 0x0037)], 3) := by decide

/-- V25, with B for C: a pointer of 0xFFFF is the last word. -/
theorem test_mov_store_imm_top :
    (after (step (start 0 0xFFFF [0x0102, 1, 0xBEEF]))).map (fun t => (t.ram, t.stack, t.pc)) =
      some ([(0xFFFF, 0xBEEF)], [], 3) := by decide

/-- Storing the reset value leaves no cell (R60). -/
theorem test_mov_store_zero_removes_cell :
    (after (step { start 0 5 [0x0101, 1, 0] with ram := [(4, 1), (5, 9), (6, 2)] })).map
      (fun t => t.ram) = some [(4, 1), (6, 2)] := by decide

/-- V26: the pointer is read before the write. -/
theorem test_mov_load_same_register :
    view (step { start 0x0010 0 [0x0103, 0, 0] with ram := [(0x0010, 0x0020)] }) =
      some (0x0020, 0, 3, false, false) := by decide

/-- V28. -/
theorem test_mov_load_unwritten :
    view (step (start 0x4000 0x5555 [0x0103, 1, 0])) = some (0x4000, 0, 3, false, false) := by
  decide

/-- V30. -/
theorem test_add_imm_wraps :
    view (step (start 0xFFFF 0 [0x0202, 0, 1])) = some (0, 0, 3, false, false) := by
  decide

/-- V32. -/
theorem test_add_reg_same :
    view (step (start 0x4000 0 [0x0201, 0, 0])) = some (0x8000, 0, 3, false, false) := by
  decide

/-- V35. -/
theorem test_sub_imm_borrows :
    view (step (start 0 3 [0x0302, 1, 5])) = some (0, 0xFFFE, 3, false, false) := by
  decide

/-- V34. -/
theorem test_sub_reg_same :
    view (step (start 0x1234 0 [0x0301, 0, 0])) = some (0, 0, 3, false, false) := by
  decide

/-- V37. -/
theorem test_mul_imm_signed :
    view (step (start 0xFFFE 0 [0x0402, 0, 3])) = some (0xFFFA, 0, 3, false, false) := by
  decide

/-- V38. -/
theorem test_mul_reg :
    view (step (start 0xFFFF 0xFFFF [0x0401, 0, 1])) = some (1, 0xFFFF, 3, false, false) := by
  decide

/-- V40. -/
theorem test_div_imm_toward_zero :
    view (step (start 0xFFF9 0 [0x0502, 0, 2])) = some (0xFFFD, 0, 3, false, false) := by
  decide

/-- V43. -/
theorem test_div_imm_overflow :
    view (step (start 0x8000 0 [0x0502, 0, 0xFFFF])) = some (0x8000, 0, 3, false, false) := by
  decide

/-- V46. -/
theorem test_div_reg_same :
    view (step (start 5 0 [0x0501, 0, 0])) = some (1, 0, 3, false, false) := by
  decide

/-- V48. -/
theorem test_mod_imm_negative_dividend :
    view (step (start 0xFFF9 0 [0x0602, 0, 2])) = some (0xFFFF, 0, 3, false, false) := by
  decide

/-- V49. -/
theorem test_mod_imm_negative_divisor :
    view (step (start 7 0 [0x0602, 0, 0xFFFE])) = some (1, 0, 3, false, false) := by
  decide

/-- by R145: 7 rem 4 = 3. -/
theorem test_mod_reg :
    view (step (start 7 4 [0x0601, 0, 1])) = some (3, 4, 3, false, false) := by
  decide

/-- V54. -/
theorem test_inc :
    view (step (start 0 9 [0x0700, 1])) = some (0, 10, 2, false, false) := by
  decide

/-- V55. -/
theorem test_inc_wraps :
    view (step (start 0xFFFF 0 [0x0700, 0])) = some (0, 0, 2, false, false) := by
  decide

/-- V60. -/
theorem test_and_imm :
    view (step (start 0xF0F0 0 [0x0802, 0, 0xFF00])) = some (0xF000, 0, 3, false, false) := by
  decide

/-- by R170. -/
theorem test_and_reg :
    view (step (start 0x0FF0 0x00FF [0x0801, 0, 1])) = some (0x00F0, 0x00FF, 3, false, false) := by
  decide

/-- V61. -/
theorem test_or_reg :
    view (step (start 0xF000 0x0F0F [0x0901, 0, 1])) = some (0xFF0F, 0x0F0F, 3, false, false) := by
  decide

/-- by R171. -/
theorem test_or_imm :
    view (step (start 0x0010 0 [0x0902, 0, 0x8001])) = some (0x8011, 0, 3, false, false) := by
  decide

/-- V62. -/
theorem test_xor_imm :
    view (step (start 0xFF0F 0 [0x0A02, 0, 0xFFFF])) = some (0x00F0, 0, 3, false, false) := by
  decide

/-- V63. -/
theorem test_xor_reg_same :
    view (step (start 0x5A5A 0 [0x0A01, 0, 0])) = some (0, 0, 3, false, false) := by
  decide

/-- V64. -/
theorem test_not_reg :
    view (step (start 0xF0F0 0x1111 [0x0B01, 1, 0])) = some (0xF0F0, 0x0F0F, 3, false, false) := by
  decide

/-- V65. -/
theorem test_not_imm_advances :
    view (step (start 0x1234 0 [0x0B02, 0, 0])) = some (0xFFFF, 0, 3, false, false) := by
  decide

/-- V68. -/
theorem test_shl_imm_fifteen :
    view (step (start 3 0 [0x0C02, 0, 15])) = some (0x8000, 0, 3, false, false) := by
  decide

/-- V70. -/
theorem test_shl_imm_whole_amount :
    view (step (start 0xFFFF 0 [0x0C02, 0, 0xFFFF])) = some (0, 0, 3, false, false) := by
  decide

/-- V69, by a register. -/
theorem test_shl_reg_sixteen :
    view (step (start 0xFFFF 16 [0x0C01, 0, 1])) = some (0, 16, 3, false, false) := by
  decide

/-- V72. -/
theorem test_shr_imm_negative :
    view (step (start 0x8000 0 [0x0D02, 0, 1])) = some (0xC000, 0, 3, false, false) := by
  decide

/-- V75. -/
theorem test_shr_imm_twenty_negative :
    view (step (start 0xFFFF 0 [0x0D02, 0, 20])) = some (0xFFFF, 0, 3, false, false) := by
  decide

/-- V78. -/
theorem test_shr_reg_same :
    view (step (start 2 0 [0x0D01, 0, 0])) = some (0, 0, 3, false, false) := by
  decide

/-- V80. -/
theorem test_cmp_reg_greater :
    view (step (start 5 3 [0x1701, 0, 1])) = some (5, 3, 3, false, true) := by
  decide

/-- V85. -/
theorem test_cmp_reg_not_wrapped :
    view (step (start 0x7FFF 0x8000 [0x1701, 0, 1])) = some (0x7FFF, 0x8000, 3, false, true) := by
  decide

/-- V83. -/
theorem test_cmp_imm_less :
    view (step (start 0x8000 0 [0x1702, 0, 1])) = some (0x8000, 0, 3, true, false) := by
  decide

/-- V82: both flags are written, whatever they were. -/
theorem test_cmp_clears_flags :
    view (step { start 0x8000 0 [0x1701, 0, 0] with gt := true }) =
      some (0x8000, 0, 3, false, false) := by decide

/-- `pc` after each of the six conditional jumps to 100, in a flag state. -/
def jumpPcs (l g : Bool) : List (Option Word) :=
  [0x0F00, 0x1000, 0x1100, 0x1200, 0x1300, 0x1400].map fun w0 =>
    (after (step { start 0 0 [w0, 100] with lt := l, gt := g })).map State.pc

/-- V90 to V95, column `lt=0, gt=0`. -/
theorem test_jumps_equal : jumpPcs false false =
    [some 100, some 2, some 2, some 100, some 2, some 100] := by decide

/-- V90 to V95, column `lt=1, gt=0`. -/
theorem test_jumps_less : jumpPcs true false =
    [some 2, some 100, some 2, some 2, some 100, some 100] := by decide

/-- V90 to V95, column `lt=0, gt=1`. -/
theorem test_jumps_greater : jumpPcs false true =
    [some 2, some 100, some 100, some 100, some 2, some 2] := by decide

/-- V96. -/
theorem test_jmp : view (step (start 0 0 [0x0E00, 17])) = some (0, 0, 17, false, false) := by decide

/-- V101. -/
theorem test_call : viewStack (step (start 0 0 [0x1500, 2])) = some (2, 1, [(1, 2)]) := by decide

/-- V100: RET leaves `sp`. -/
theorem test_ret :
    viewStack (step { startStack 0 1 [(1, 5)] [0, 0, 0, 0, 0x1600] with pc := 4 }) =
      some (5, 1, [(1, 5)]) := by decide

/-- V102. -/
theorem test_ret_at_reset : after (step (start 0 0 [0x1600])) = some (start 0 0 [0x1600]) := by decide

/-- V111. -/
theorem test_push_reg :
    viewStack (step (startStack 0xFFFF 3 [] [0x1801, 0])) = some (2, 4, [(4, 0xFFFF)]) := by decide

/-- V110. -/
theorem test_push_imm :
    viewStack (step (start 0 0 [0x1802, 0x002A])) = some (2, 1, [(1, 0x002A)]) := by decide

/-- V112, with A for C: the word stays in STACK. -/
theorem test_pop :
    (after (step (startStack 0 1 [(1, 0x002A)] [0x1900, 0]))).map
      (fun t => (t.reg .A, t.sp, t.pc, t.stack)) = some (0x002A, 0, 2, [(1, 0x002A)]) := by decide

/-! ## Faults and terminal states -/

/-- V2 to V9: causes 1 to 4; the record takes `pc` and the word, `pc` stays. -/
theorem test_decode_faults :
    viewFault (step (start 0 0 [0x1A00])) = some (1, 0, 0x1A00, 0) ∧
    viewFault (step (start 0 0 [0x19FF])) = some (2, 0, 0x19FF, 0) ∧
    viewFault (step (start 0 0 [0x0000])) = some (3, 0, 0x0000, 0) ∧
    viewFault (step (start 0 0 [0x0002, 0])) = some (4, 0, 0x0002, 0) := by decide

/-- V14: a bad register is found before a zero divisor. -/
theorem test_bad_register_before_zero_divisor :
    viewFault (step (start 0 0 [0x0501, 9, 1])) = some (5, 0, 0x0501, 0) := by decide

/-- V98, V114. -/
theorem test_stack_overflow :
    viewFault (step (startStack 0 0xFFFF [] [0x1500, 5])) = some (6, 0, 0x1500, 0) ∧
    viewStack (step (startStack 0 0xFFFF [] [0x1802, 1])) = some (0, 0xFFFF, []) := by decide

/-- V113: the register keeps its value. -/
theorem test_stack_underflow :
    viewFault (step (start 0x1111 0 [0x1900, 0])) = some (7, 0, 0x1900, 0) ∧
    view (step (start 0x1111 0 [0x1900, 0])) = some (0x1111, 0, 0, false, false) := by decide

/-- V45, V52. -/
theorem test_divide_by_zero :
    viewFault (step (start 7 0 [0x0502, 0, 0])) = some (8, 0, 0x0502, 0) ∧
    viewFault (step (start 7 0 [0x0601, 0, 1])) = some (8, 0, 0x0601, 0) ∧
    view (step (start 7 0 [0x0502, 0, 0])) = some (7, 0, 0, false, false) := by decide

/-- V16: an empty Program has halted at reset. -/
theorem test_halted_at_reset : step State.reset = .fault .halted := rfl

/-- R269, R31: after a fault no step is taken. -/
theorem test_faulted_is_terminal :
    step { start 0 0 [0x1A00] with faultCause := 1, faultWord := 0x1A00 } = .fault .faulted :=
  rfl

/-- R9, R302: a Program too long is refused. -/
theorem test_long_program_refused :
    step (start 0 0 (List.replicate 65536 0x1600)) = .refused .programTooLong := by
  have h : programWellFormed (start 0 0 (List.replicate 65536 0x1600)).program = false :=
    test_program_of_65536_words_refused
  rw [step, h]
  rfl

/-- R302, R300. -/
theorem test_boot : boot [0x1600] = some (start 0 0 [0x1600]) := by decide

/-- R37: the host sees a terminal state and no other. -/
theorem test_observe :
    (start 0 0 [0x1600]).observe = none ∧ (start 0 0 []).observe = some (start 0 0 []) := by decide

/-! ## Witnesses: each statement's hypotheses are met together

Named after the statement; where a statement has several clauses, one theorem or one conjunct for
each, at a boundary of its range. -/

theorem witness_EncodeOfDecodeIsIdentity : decode 0x0103 [7, 0, 9] = .ok (.movLoad .H .A) := by
  decide

theorem witness_CodecRoundTripOnLegalPairs :
    operandKinds .LD .REGISTER ≠ none ∧ operandKinds .POP .IMPLIED ≠ none ∧
    Opcode.LD.ordinal = Opcode.LD.ordinal ∧ Mode.INDIRECT.ordinal = Mode.INDIRECT.ordinal := by
  decide

theorem witness_DecoderAcceptsExactlyWellFormedWords :
    decode (codec .LD .REGISTER) ([7, 0] ++ [5]) = .ok (.ldReg .H .A) ∧
    (RawInstr.mk .LD .REGISTER [7, 0]).wellFormed = true ∧
    decode (codec .LD .REGISTER) ([8, 0] ++ [5]) = .bad .badRegisterW1 ∧
    (RawInstr.mk .LD .REGISTER [8, 0]).wellFormed = false := by decide

/-- First clause, at opcode byte 26; second clause, a step that records cause 1. -/
theorem witness_UndefinedOpcodeFaults :
    ReadyAt (start 0 0 [0x1A00]) 0x1A00 [] ∧ 26 ≤ uval 0x1A00 / 256 ∧
    ∃ t, step (start 0 0 [0x1A00]) = .next t ∧ t.faultCause = 1 :=
  ⟨⟨by decide, rfl, rfl⟩, by decide, _, rfl, rfl⟩

/-- At the other side of the boundary, opcode byte 25, the first clause does not apply. -/
theorem witness_UndefinedOpcodeFaults_boundary : ¬ 26 ≤ uval 0x19FF / 256 := by decide

/-- First clause, at opcode byte 25 and mode byte 4; second clause. -/
theorem witness_UndefinedModeFaults :
    ReadyAt (start 0 0 [0x1904]) 0x1904 [] ∧ uval 0x1904 / 256 ≤ 25 ∧ 4 ≤ uval 0x1904 % 256 ∧
    ∃ t, step (start 0 0 [0x1904]) = .next t ∧ t.faultCause = 2 :=
  ⟨⟨by decide, rfl, rfl⟩, by decide, by decide, _, rfl, rfl⟩

/-- First clause, at opcode byte 25 and mode byte 3; second clause. -/
theorem witness_IncompatiblePairFaults :
    ReadyAt (start 0 0 [0x1903, 0, 0]) 0x1903 [0, 0] ∧ uval 0x1903 / 256 ≤ 25 ∧
    uval 0x1903 % 256 ≤ 3 ∧ 0x1903 ∉ legalWords ∧
    ∃ t, step (start 0 0 [0x1903, 0, 0]) = .next t ∧ t.faultCause = 3 :=
  ⟨⟨by decide, rfl, rfl⟩, by decide, by decide, by decide, _, rfl, rfl⟩

/-- First clause, one word short; second clause. -/
theorem witness_TruncatedInstructionFaults :
    ReadyAt (start 0 0 [0x0002, 0]) 0x0002 [0] ∧ 0x0002 ∈ legalWords ∧
    (start 0 0 [0x0002, 0]).program.length < uval (start 0 0 [0x0002, 0]).pc + lengthOf 0x0002 ∧
    ∃ t, step (start 0 0 [0x0002, 0]) = .next t ∧ t.faultCause = 4 :=
  ⟨⟨by decide, rfl, rfl⟩, by decide, by decide, _, rfl, rfl⟩

/-- First clause with `w1 = 8`, and with `w2 = 8`; second clause. -/
theorem witness_RegisterOperandAboveSevenFaults :
    (ReadyAt (start 0 0 [0x0001, 8, 7]) 0x0001 [8, 7] ∧ 0x0001 ∈ legalWords ∧
      0 + lengthOf 0x0001 ≤ (start 0 0 [0x0001, 8, 7]).program.length ∧
      HasBadRegister 0x0001 [8, 7]) ∧
    (ReadyAt (start 0 0 [0x0103, 7, 8]) 0x0103 [7, 8] ∧ 0x0103 ∈ legalWords ∧
      0 + lengthOf 0x0103 ≤ (start 0 0 [0x0103, 7, 8]).program.length ∧
      HasBadRegister 0x0103 [7, 8]) ∧
    ∃ t, step (start 0 0 [0x0001, 8, 7]) = .next t ∧ t.faultCause = 5 :=
  ⟨⟨⟨by decide, rfl, rfl⟩, by decide, by decide, .inl ⟨by decide, _, rfl, by decide⟩⟩,
    ⟨⟨by decide, rfl, rfl⟩, by decide, by decide, .inr ⟨by decide, _, rfl, by decide⟩⟩, _, rfl, rfl⟩

theorem witness_StepRunsDecodedInstruction :
    ReadyAt (start 0 0 [0x0700, 1, 9]) 0x0700 [1, 9] ∧ decode 0x0700 [1, 9] = .ok (.inc .B) :=
  ⟨⟨by decide, rfl, rfl⟩, by decide⟩

theorem witness_StepRunsEncodedInstruction :
    (start 0 0 [0x0700, 1, 9]).program.length ≤ 65535 ∧
    (start 0 0 [0x0700, 1, 9]).faultCause = 0 ∧
    (start 0 0 [0x0700, 1, 9]).program.drop 0 = encode (.inc .B) ++ [9] := by decide

/-- The greatest Program, and one word more. -/
theorem witness_StepTakenExactlyWhileRunning :
    (start 0 0 (List.replicate 65535 0)).program.length ≤ 65535 ∧
    65535 < (start 0 0 (List.replicate 65536 0)).program.length := by
  simp only [start, List.length_replicate]
  decide

/-- At the greatest `pc` of the statement. -/
theorem witness_PlacedTableWordIsTheNextInstruction :
    uval ({ State.reset with pc := 65532 } : State).pc ≤ 65532 ∧
    decodeTableWord 48 0x000500010202 = some (.addImm .B 5) := by decide

theorem witness_BootPlacesTheProgramAndZeroesTheRest :
    (List.replicate 65535 (0 : Word)).length ≤ 65535 ∧
    65535 < (List.replicate 65536 (0 : Word)).length := by
  simp only [List.length_replicate]
  decide

/-- A running state, in which nothing is observed, and a halted one, in which the whole state is. -/
theorem witness_HostReadsExactlyTheTerminalStates :
    (start 0 0 [0x1600]).program.length ≤ 65535 ∧
    (start 0 0 []).observe = some (start 0 0 []) := by decide

/-- A state with cells in both memories that satisfies the invariant. -/
def invState (p : List Word) : State :=
  { startStack 1 1 [(1, 5), (65535, 7)] p with ram := [(0, 1), (65535, 2)] }

theorem invState_inv (p : List Word) (h : p.length ≤ 65535) : Inv (invState p) :=
  ⟨(by decide : Memory.wf [(0, 1), (65535, 2)]), (by decide : Memory.wf [(1, 5), (65535, 7)]),
    by simp [invState, startStack, start, State.reset], h, rfl, Nat.zero_le 8, fun _ => ⟨rfl, rfl⟩, fun h => absurd rfl h⟩

/-- A step that completes, and a step that faults, from states that satisfy the invariant. -/
theorem witness_StepKeepsInvariant :
    (Inv (invState [0x1801, 0]) ∧ ∃ t, step (invState [0x1801, 0]) = .next t ∧ t.sp = 2) ∧
    (Inv (invState [0x1A00]) ∧ ∃ t, step (invState [0x1A00]) = .next t ∧ t.faultCause = 1) :=
  ⟨⟨invState_inv _ (by decide), _, rfl, rfl⟩, ⟨invState_inv _ (by decide), _, rfl, rfl⟩⟩

theorem witness_FaultingStepWritesOnlyTheRecord :
    (start 7 0 [0x0502, 0, 0]).faultCause = 0 ∧
    ∃ t, step (start 7 0 [0x0502, 0, 0]) = .next t ∧ t.faultCause ≠ 0 :=
  ⟨rfl, _, rfl, by decide⟩

/-- The hypotheses of the first clause, for an instruction and the Program that begins with it. -/
def MovesFrom (i : Instr) (s : State) (q : State → Prop) : Prop :=
  s.program.length ≤ 65535 ∧ s.faultCause = 0 ∧ s.program.drop (uval s.pc) = encode i ++ [] ∧
    ∃ t, step s = .next t ∧ q t

/-- One witness for each clause about `pc`: a faulting step; the sequential advance, past the last
word of a Program; JMP, CALL, RET; and each of the six conditional jumps, taken or not. -/
theorem witness_StepMovesPcByLengthOrToTarget :
    MovesFrom (.pop .A) (start 0 0 [0x1900, 0]) (fun t => t.faultCause = 7) ∧
    MovesFrom (.notImm .A 0) (start 0 0 [0x0B02, 0, 0]) (fun t => t.pc = 3) ∧
    MovesFrom (.jmp 65535) (start 0 0 [0x0E00, 65535]) (fun t => t.pc = 65535) ∧
    MovesFrom (.call 9) (start 0 0 [0x1500, 9]) (fun t => t.pc = 9) ∧
    MovesFrom .ret (startStack 0 1 [(1, 5)] [0x1600]) (fun t => t.pc = 5) ∧
    MovesFrom (.jeq 9) (start 0 0 [0x0F00, 9]) (fun t => t.pc = 9) ∧
    MovesFrom (.jne 9) (start 0 0 [0x1000, 9]) (fun t => t.pc = 2) ∧
    MovesFrom (.jgt 9) (start 0 0 [0x1100, 9]) (fun t => t.pc = 2) ∧
    MovesFrom (.jge 9) (start 0 0 [0x1200, 9]) (fun t => t.pc = 9) ∧
    MovesFrom (.jlt 9) (start 0 0 [0x1300, 9]) (fun t => t.pc = 2) ∧
    MovesFrom (.jle 9) (start 0 0 [0x1400, 9]) (fun t => t.pc = 9) := by
  refine ⟨?_, ?_, ?_, ?_, ?_, ?_, ?_, ?_, ?_, ?_, ?_⟩ <;>
    exact ⟨by decide, by decide, by decide, _, rfl, by decide⟩

/-- The clause about a word that does not decode. -/
theorem witness_StepMovesPcByLengthOrToTarget_rejected :
    ReadyAt (start 0 0 [0x1A00]) 0x1A00 [] ∧ decode 0x1A00 [] = .bad .illegalOpcode ∧
    ∃ t, step (start 0 0 [0x1A00]) = .next t :=
  ⟨⟨by decide, rfl, rfl⟩, by decide, _, rfl⟩

/-- A RAM with cells at both ends of its space. -/
theorem witness_MovStoreWritesOneRamWord : (invState []).ram.wf := by decide

theorem witness_StoredWordIsLoadedBack : (invState []).ram.wf := by decide

/-- Each clause: a register source, a literal, a pair other than the overflowing one, and that one. -/
theorem witness_DivTruncatesTowardZero :
    (start 0x8000 0xFFFF []).reg .B ≠ 0 ∧ (0xFFFF : Word) ≠ 0 ∧
    ((1 : Word) ≠ 0 ∧ ¬ ((start 0x8000 0 []).reg .A = 0x8000 ∧ (1 : Word) = 0xFFFF)) ∧
    (start 0x8000 0 []).reg .A = 0x8000 := by decide

theorem witness_ModTakesTheSignOfTheDividend :
    (start 0x8000 0xFFFF []).reg .B ≠ 0 ∧ (0xFFFF : Word) ≠ 0 := by decide

theorem witness_TruncatingDivisionLaws : (-1 : Int) ≠ 0 := by decide

theorem witness_ZeroDivisorFaults : (start 7 0 []).reg .B = 0 := by decide

theorem witness_EquivalentInstructions : 15 ≤ 15 ∧ 0 ≤ 15 := by decide

theorem witness_JumpsAfterCmpFollowTheOrder :
    (∃ t, exec (.cmpReg .A .B) (start 0x8000 0x7FFF []) = .next t ∧ t.lt = true) ∧
    ∃ t, exec (.cmpImm .A 0x8000) (start 0x7FFF 0 []) = .next t ∧ t.gt = true :=
  ⟨⟨_, rfl, by decide⟩, _, rfl, by decide⟩

/-- The greatest stack pointer that a push accepts, over a STACK that is not empty. -/
theorem witness_CallPushesReturnAddress :
    (startStack 0 65534 [(1, 5)] []).stack.wf ∧ uval (startStack 0 65534 [(1, 5)] []).sp < 65535 := by
  decide

theorem witness_CallThenRetLeavesTheReturnSlot :
    (startStack 0 65534 [(1, 5)] []).stack.wf ∧ uval (startStack 0 65534 [(1, 5)] []).sp < 65535 := by
  decide

theorem witness_PushStoresAtIncrementedPointer :
    (startStack 0 65534 [(1, 5)] []).stack.wf ∧ uval (startStack 0 65534 [(1, 5)] []).sp < 65535 := by
  decide

/-- Both pushing forms, and both ends of the range of `sp`. -/
theorem witness_PushThenPopRestores :
    (startStack 3 65534 [(1, 5)] []).stack.wf ∧
    uval (startStack 3 65534 [(1, 5)] []).sp < 65535 ∧ uval (startStack 3 0 [] []).sp < 65535 ∧
    (Instr.pushReg .A = .pushReg .A ∧ 3 = (startStack 3 65534 [(1, 5)] []).reg .A) ∧
    (Instr.pushImm 9 = .pushImm 9 ∧ (9 : Word) = 9) := by decide

theorem witness_ReturnUnderTheOtherParameter :
    (startStack 0 0 [] []).sp = 0 ∧ (startStack 0 1 [] []).sp ≠ 0 ∧
    (startStack 0 65535 [] []).sp ≠ 0 := by decide

theorem witness_PopReadsTopAndDecrements :
    (startStack 0 1 [] []).sp ≠ 0 ∧ (startStack 0 65535 [] []).sp ≠ 0 := by decide

theorem witness_PushOnFullStackFaults : uval (startStack 0 0xFFFF [] []).sp = 65535 := by decide

theorem witness_PopOnEmptyStackFaults : uval (startStack 0 0 [] []).sp = 0 := by decide

/-- A CMP, and an instruction that is neither a CMP nor a conditional jump. -/
theorem witness_FlagsAreCmpsAndTheJumpsAlone :
    (∃ t, exec (.cmpImm .A 9) (start 0 0 []) = .next t ∧ (Instr.cmpImm .A 9).raw.op = .CMP) ∧
    ∃ t, exec (.inc .A) (start 0 0 []) = .next t ∧ (Instr.inc .A).raw.op ≠ .CMP ∧
      (Instr.inc .A).raw.op ∉ conditionalJumps :=
  ⟨⟨_, rfl, rfl⟩, _, rfl, by decide, by decide⟩

/-- No MOV; a storing MOV, over two canonical RAMs that differ at its address; a loading MOV, over two
RAMs that differ but not at its pointer. -/
theorem witness_RamIsReachedOnlyByMov :
    (∃ t, exec .ret (start 0 0 []) = .next t ∧
      ¬ (Instr.ret.raw.op = .MOV ∧ Instr.ret.raw.mode ≠ .INDIRECT) ∧ Instr.ret.raw.op ≠ .MOV) ∧
    (∃ t, exec (.movStoreReg .A .B) (start 0 0 []) = .next t ∧
      (Instr.movStoreReg .A .B).raw.op = .MOV ∧ (Instr.movStoreReg .A .B).raw.mode ≠ .INDIRECT ∧
      (Instr.movStoreReg .A .B).raw.operands[0]? = some Reg.A.ordinal ∧
      (start 0 0 []).ram.wf ∧ Memory.wf [(0, 9), (65535, 1)]) ∧
    ∃ t, exec (.movLoad .A .B) (start 0 5 []) = .next t ∧
      (Instr.movLoad .A .B).raw.op = .MOV ∧ (Instr.movLoad .A .B).raw.mode = .INDIRECT ∧
      (Instr.movLoad .A .B).raw.operands[1]? = some Reg.B.ordinal ∧
      Memory.read [(9, 1)] (uval ((start 0 5 []).reg .B)) =
        (start 0 5 []).ramRead ((start 0 5 []).reg .B) :=
  ⟨⟨_, rfl, by decide, by decide⟩, ⟨_, rfl, rfl, by decide, rfl, by decide, by decide⟩,
    _, rfl, rfl, rfl, rfl, by decide⟩

/-- One of each class: none of the four; PUSH at the greatest `sp` it accepts, over two canonical
STACKs that differ at the slot it writes, and CALL on a full stack; POP over two STACKs that agree
at `sp`. -/
theorem witness_StackIsReachedOnlyThroughSp :
    (∃ t, exec (.inc .A) (start 0 0 []) = .next t ∧
      (Instr.inc .A).raw.op ∉ [Opcode.PUSH, .CALL] ∧
      (Instr.inc .A).raw.op ∉ [Opcode.PUSH, .CALL, .POP, .RET]) ∧
    (∃ t, exec (.pushImm 5) (startStack 0 65534 [(1, 5)] []) = .next t ∧
      (Instr.pushImm 5).raw.op ∈ [Opcode.PUSH, .CALL] ∧
      (Instr.pushImm 5).raw.op ∈ [Opcode.PUSH, .CALL, .POP, .RET] ∧
      uval (startStack 0 65534 [(1, 5)] []).sp < 65535 ∧
      (startStack 0 65534 [(1, 5)] []).stack.wf ∧ Memory.wf [(65535, 9)]) ∧
    (∃ t, exec (.call 5) (startStack 0 65535 [] []) = .next t ∧
      (Instr.call 5).raw.op ∈ [Opcode.PUSH, .CALL] ∧
      uval (startStack 0 65535 [] []).sp = 65535) ∧
    ∃ t, exec (.pop .A) (startStack 0 1 [(1, 5)] []) = .next t ∧
      (Instr.pop .A).raw.op ∈ [Opcode.POP, .RET] ∧
      Memory.read [(1, 5), (2, 6)] (uval (startStack 0 1 [(1, 5)] []).sp) =
        (startStack 0 1 [(1, 5)] []).stackRead (startStack 0 1 [(1, 5)] []).sp :=
  ⟨⟨_, rfl, by decide, by decide⟩,
    ⟨_, rfl, by decide, by decide, by decide, by decide, by decide⟩,
    ⟨_, rfl, by decide, by decide⟩, _, rfl, by decide, by decide⟩

/-- No writer, a storing MOV, a writer seen at another register, no user of `sp`. -/
theorem witness_RegistersAndSpHaveOnlyTheirWriters :
    (∃ t, exec (.jmp 5) (start 0 0 []) = .next t ∧ (Instr.jmp 5).raw.op ∉ registerWriters ∧
      (Instr.jmp 5).raw.op ∉ [Opcode.PUSH, .POP, .CALL]) ∧
    (∃ t, exec (.movStoreImm .A 5) (start 0 0 []) = .next t ∧
      (Instr.movStoreImm .A 5).raw.op = .MOV ∧ (Instr.movStoreImm .A 5).raw.mode ≠ .INDIRECT) ∧
    ∃ t, exec (.inc .A) (start 0 0 []) = .next t ∧
      (Instr.inc .A).raw.operands[0]? ≠ some Reg.B.ordinal :=
  ⟨⟨_, rfl, by decide, by decide⟩, ⟨_, rfl, rfl, by decide⟩, _, rfl, by decide⟩

theorem witness_ProgramIsNeitherReadAsDataNorWritten :
    (∃ t, step (start 0 0 [0x0700, 0]) = .next t) ∧
    ∃ t, exec (.inc .A) (start 0 0 [0x0700, 0]) = .next t :=
  ⟨⟨_, rfl⟩, _, rfl⟩

theorem witness_CanonicalMemoriesWithEqualReadsAreEqual :
    Memory.wf [(0, 1), (65535, 2)] ∧ Memory.wf [(0, 1), (65535, 2)] ∧
    ∀ a < 65536, Memory.read [(0, 1), (65535, 2)] a = Memory.read [(0, 1), (65535, 2)] a :=
  ⟨by decide, by decide, fun _ _ => rfl⟩

end Sys2Proof.Tests
end

section
/-! PROOFS. The invariant: the reset state has it, each operation on the state keeps it, and so every step does. -/

namespace Sys2Proof.Machine

/-! ## Each operation keeps the invariant -/

/-- The codes of R260 are 1 to 8. -/
theorem causeCode_range (c : FaultCause) : causeCode c ≠ 0 ∧ (causeCode c).toNat ≤ 8 := by
  cases c <;> decide

/-- Fault entry leaves a machine that is faulted (R260). -/
theorem faultCause_takeFault_ne_zero (s : State) (c : FaultCause) (w : Word) :
    (s.takeFault c w).faultCause ≠ 0 :=
  (causeCode_range c).1

namespace Inv

variable {s : State}

theorem setReg (h : Inv s) (d : Reg) (v : Word) : Inv (s.setReg d v) := { h with }

theorem setSp (h : Inv s) (v : Word) : Inv (s.setSp v) := { h with }

theorem ramWrite (h : Inv s) (a v : Word) : Inv (s.ramWrite a v) :=
  { h with ramWf := State.wf_ramWrite h.ramWf a v }

/-- Two flags that exclude each other. -/
theorem setFlags (h : Inv s) {l g : Bool} (hx : ¬ (l = true ∧ g = true)) :
    Inv (s.setFlags l g) := { h with flagsExclusive := hx }

/-- A push that is not turned away stores at `sp + 1`, which is not slot 0 (R54). -/
theorem push (h : Inv s) (hs : s.sp ≠ Config.spMax) (v : Word) : Inv (s.push v) :=
  have h0 : (0 : Word) ≠ s.sp + 1 := fun e =>
    Nat.succ_ne_zero _ ((sp_succ_toNat hs).symm.trans (congrArg BitVec.toNat e.symm))
  { h with
    stackWf := State.wf_push h.stackWf v
    slotZero := (State.stackRead_push_ne s v h0).trans h.slotZero }

/-- `pc` may move as long as no fault record ties it down (R269). -/
theorem jumpTo (h : Inv s) (hc : s.faultCause = 0) (x : Word) : Inv (s.jumpTo x) :=
  { h with recordSet := fun hn => absurd hc hn }

theorem advance (h : Inv s) (hc : s.faultCause = 0) (n : Nat) : Inv (s.advance n) :=
  h.jumpTo hc _

/-- Fault entry records `pc` and the word there. -/
theorem takeFault (h : Inv s) {w : Word} (hw : s.program[uval s.pc]? = some w) (c : FaultCause) :
    Inv (s.takeFault c w) :=
  { h with
    causeRange := (causeCode_range c).2
    recordClear := fun h0 => absurd h0 (faultCause_takeFault_ne_zero s c w)
    recordSet := fun _ => ⟨rfl, hw⟩ }

end Inv

/-! ## So does every instruction, and every step -/

/-- CMP never sets both flags (R29). -/
theorem cmpFlags_exclusive (a b : Word) : ¬ (cmpLess a b = true ∧ cmpGreater a b = true) := by
  simp only [cmpLess, cmpGreater, decide_eq_true_eq]
  omega

/-- An instruction executed at its own word, before any fault, keeps the invariant. -/
theorem exec_keeps_inv {i : Instr} {s t : State} (h : Inv s) (hc : s.faultCause = 0)
    (hw : s.program[uval s.pc]? = some i.word0) (he : exec i s = .next t) : Inv t := by
  cases exec_inv he with
  | fault c => exact h.takeFault hw c
  | reg d v => exact (h.setReg d v).advance hc _
  | ram p v => exact (h.ramWrite _ v).advance hc _
  | flags a b => exact (h.setFlags (cmpFlags_exclusive a b)).advance hc _
  | pushed v _ hs => exact (h.push hs v).advance hc _
  | called x _ hs => exact (h.push hs _).jumpTo hc x
  | popped d => exact ((h.setReg d _).setSp _).advance hc _
  | jump x => exact h.jumpTo hc x
  | fall => exact h.advance hc _

/-- Settles O20: a step runs the instruction whose word stands at `pc`, or records the decoder's
rejection of that word, and either keeps the invariant. -/
theorem stepKeepsInvariant : Obligations.StepKeepsInvariant := by
  intro s t hi h
  obtain ⟨w0, rest, hr, ⟨i, hd, he⟩ | ⟨r, -, rfl⟩⟩ := step_cases h
  · have hw : s.program[uval s.pc]? = some i.word0 := by
      rw [word_of_ready hr, word0_of_decode hd]
    obtain ⟨-, hc, -⟩ := hr
    exact exec_keeps_inv hi hc hw he
  · exact hi.takeFault (word_of_ready hr) _

/-- Settles O19. -/
theorem invariantHoldsAtReset : Obligations.InvariantHoldsAtReset where
  ramWf := Memory.wf_nil
  stackWf := Memory.wf_nil
  flagsExclusive := fun h => absurd h.1 Bool.false_ne_true
  programFits := Nat.zero_le _
  slotZero := rfl
  causeRange := Nat.zero_le _
  recordClear := fun _ => ⟨rfl, rfl⟩
  recordSet := fun h => absurd rfl h

/-! ## Reset -/

theorem RegFile.get_zero (r : Reg) : (⟨0, 0, 0, 0, 0, 0, 0, 0⟩ : RegFile).get r = 0 := by
  cases r <;> rfl

/-- After reset everything R20 lists is zero, whatever Program stands there (R36, R301). -/
theorem allZero_assertReset (s : State) : AllZero s.assertReset :=
  ⟨RegFile.get_zero, rfl, rfl, rfl, rfl, rfl, rfl, rfl, fun _ => rfl, fun _ => rfl⟩

/-- Settles O16: the reset state is itself what reset makes of it. -/
theorem resetClearsEverything : Obligations.ResetClearsEverything := fun s =>
  ⟨allZero_assertReset s, rfl, allZero_assertReset State.reset, rfl⟩

end Sys2Proof.Machine
end

section
/-! PROOFS. The words of an instruction: the decoder reads it back from them, and they are those of its row of the table. -/

namespace Sys2Proof

theorem Reg.ordinal_injective {p q : Reg} (h : p.ordinal = q.ordinal) : p = q := by
  simpa using congrArg Reg.ofOrdinal? h

/-- The decoder reads an instruction back from its own words (R81, R88, R100). -/
theorem decode_word0 (i : Instr) (rest : List Word) :
    decode i.word0 (i.raw.operands ++ rest) = .ok i := by
  cases i <;> simp [decode, Instr.word0, Instr.raw, form, decodeOperands]

/-- The pair of an instruction is legal, and the table gives it as many operand words as it has. -/
theorem operandKinds_raw (i : Instr) :
    ∃ kds, operandKinds i.raw.op i.raw.mode = some kds ∧ kds.length = i.raw.operands.length := by
  cases i <;> exact ⟨_, rfl, rfl⟩

end Sys2Proof
end

section
/-! PROOFS. When a step is taken, what the host sees, and where a step leaves `pc`. -/

namespace Sys2Proof.Machine

/-! ## When a step is taken -/

/-- A machine is ready at some words exactly when its Program is one the spec covers and it runs
(R9, R31). -/
theorem exists_readyAt_iff (s : State) :
    (∃ w0 rest, ReadyAt s w0 rest) ↔
      s.program.length ≤ 65535 ∧ s.faultCause = 0 ∧ uval s.pc < s.program.length := by
  constructor
  · rintro ⟨w0, rest, h⟩
    have hlen := length_of_ready h
    obtain ⟨hl, hc, -⟩ := h
    exact ⟨hl, hc, by omega⟩
  · rintro ⟨hl, hc, hp⟩
    exact ⟨_, _, hl, hc, List.drop_eq_getElem_cons hp⟩

/-- A ready machine steps: its word executes, or faults by record (R89). -/
theorem step_next_of_ready {s : State} {w0 : Word} {rest : List Word} (h : ReadyAt s w0 rest) :
    ∃ t, step s = .next t := by
  rw [step_of_ready h]
  cases decode w0 rest with
  | ok i =>
    obtain ⟨t, ht, -⟩ := exec_effect i s
    exact ⟨t, ht⟩
  | bad r => exact ⟨_, rfl⟩

theorem step_next_iff (s : State) :
    (∃ t, step s = .next t) ↔
      s.program.length ≤ 65535 ∧ s.faultCause = 0 ∧ uval s.pc < s.program.length := by
  rw [← exists_readyAt_iff]
  constructor
  · rintro ⟨t, h⟩
    obtain ⟨w0, rest, hr, -⟩ := step_cases h
    exact ⟨w0, rest, hr⟩
  · rintro ⟨w0, rest, hr⟩
    exact step_next_of_ready hr

theorem step_of_faulted {s : State} (hl : s.program.length ≤ 65535) (hc : s.faultCause ≠ 0) :
    step s = .fault .faulted := by
  have hf : s.faulted = true := by simpa [State.faulted] using hc
  simp [step, (programWellFormed_iff _).mpr hl, hf]

theorem step_of_halted {s : State} (hl : s.program.length ≤ 65535) (hc : s.faultCause = 0)
    (hp : s.program.length ≤ uval s.pc) : step s = .fault .halted := by
  have hw : s.fetchWords = [] := List.drop_eq_nil_of_le hp
  simp [step, (programWellFormed_iff _).mpr hl, State.faulted, hc, State.fetchDecode, hw]

theorem step_of_long_program {s : State} (hl : 65535 < s.program.length) :
    step s = .refused .programTooLong := by
  have hw : programWellFormed s.program ≠ true := fun h => by
    have := (programWellFormed_iff _).mp h
    omega
  simp [step, hw]

/-- Settles O14: a machine is faulted, halted or running, and each of the three has an answer of its
own. -/
theorem stepTakenExactlyWhileRunning : Obligations.StepTakenExactlyWhileRunning := by
  intro s
  refine ⟨fun hl => ?_, step_of_long_program⟩
  by_cases hc : s.faultCause = 0
  · by_cases hp : uval s.pc < s.program.length
    · obtain ⟨t, ht⟩ := (step_next_iff s).mpr ⟨hl, hc, hp⟩
      simp [ht, hc, hp]
    · have hp := Nat.le_of_not_lt hp
      simp [step_of_halted hl hc hp, hc, hp]
  · simp [step_of_faulted hl hc, show s.faultCause ≠ 0#4 from hc]

/-! ## What the host sees -/

theorem running_iff (s : State) :
    s.running = true ↔ s.faultCause = 0 ∧ uval s.pc < s.program.length := by
  simp [State.running]

theorem observe_eq_none_iff (s : State) : s.observe = none ↔ s.running = true := by
  simp [State.observe]

theorem eq_of_observe {s o : State} (h : s.observe = some o) : o = s := by
  unfold State.observe at h
  split at h
  · cases h
  · exact (Option.some.inj h).symm

/-- Settles O18: both sides say that the machine runs. -/
theorem hostReadsExactlyTheTerminalStates : Obligations.HostReadsExactlyTheTerminalStates := by
  intro s hl
  refine ⟨?_, fun o => eq_of_observe⟩
  rw [observe_eq_none_iff, running_iff, step_next_iff]
  exact (and_iff_right hl).symm

/-! ## The words of an instruction -/

/-- The numbers of `lengthOf` are those of R84: one word, and one for each operand. -/
theorem lengthOf_codec {op : Opcode} {m : Mode} {kds : List OperandKind}
    (h : operandKinds op m = some kds) : lengthOf (codec op m) = 1 + kds.length := by
  cases op <;> cases m <;> cases h <;> decide

theorem length_eq_lengthOf (i : Instr) : i.length = lengthOf i.word0 := by
  obtain ⟨kds, hk, hn⟩ := operandKinds_raw i
  rw [Instr.word0, lengthOf_codec hk, hn, Instr.length]

theorem readyAt_of_encode {s : State} {i : Instr} {rest : List Word}
    (hl : s.program.length ≤ 65535) (hc : s.faultCause = 0)
    (hp : s.program.drop (uval s.pc) = encode i ++ rest) :
    ReadyAt s i.word0 (i.raw.operands ++ rest) :=
  ⟨hl, hc, hp⟩

theorem step_of_encode {s : State} {i : Instr} {rest : List Word}
    (hr : ReadyAt s i.word0 (i.raw.operands ++ rest)) : step s = exec i s := by
  rw [step_of_ready hr, decode_word0]

/-- The words of an instruction in a Program end by offset 65535, so passing them does not wrap. -/
theorem uval_pc_add_length {s : State} {i : Instr} {rest : List Word}
    (hr : ReadyAt s i.word0 (i.raw.operands ++ rest)) :
    uval (s.pc + BitVec.ofNat 16 i.length) = uval s.pc + i.length := by
  have hlen := length_of_ready hr
  obtain ⟨hl, -, -⟩ := hr
  rw [List.length_append] at hlen
  simp only [uval, Instr.length, BitVec.toNat_add, BitVec.toNat_ofNat] at hlen ⊢
  omega

/-! ## Where an instruction leaves `pc` -/

/-- A jump, with its condition as a proposition (R210). -/
theorem jumpStep_eq {taken : Bool} {P : Prop} [Decidable P] (h : taken = true ↔ P) (x : Word)
    (s : State) : jumpStep taken x s = .next { s with pc := if P then x else s.pc + 2 } := by
  rcases jumpStep_cases taken x s with ⟨ht, e⟩ | ⟨ht, e⟩
  · rw [e, if_pos (h.mp ht)]
    rfl
  · rw [e, if_neg (mt h.mpr (by simp [ht]))]
    rfl

section
variable (x : Word) (s : State)

theorem exec_jmp : exec (.jmp x) s = .next { s with pc := x } := rfl

theorem exec_jeq : exec (.jeq x) s =
    .next { s with pc := if s.lt = false ∧ s.gt = false then x else s.pc + 2 } :=
  jumpStep_eq (by simp [condEq]) x s

theorem exec_jne : exec (.jne x) s =
    .next { s with pc := if s.lt = true ∨ s.gt = true then x else s.pc + 2 } :=
  jumpStep_eq (by simp [condNe]) x s

theorem exec_jgt : exec (.jgt x) s =
    .next { s with pc := if s.gt = true then x else s.pc + 2 } :=
  jumpStep_eq (by simp [condGt]) x s

theorem exec_jge : exec (.jge x) s =
    .next { s with pc := if s.lt = false then x else s.pc + 2 } :=
  jumpStep_eq (by simp [condGe]) x s

theorem exec_jlt : exec (.jlt x) s =
    .next { s with pc := if s.lt = true then x else s.pc + 2 } :=
  jumpStep_eq (by simp [condLt]) x s

theorem exec_jle : exec (.jle x) s =
    .next { s with pc := if s.gt = false then x else s.pc + 2 } :=
  jumpStep_eq (by simp [condLe]) x s

theorem exec_ret : exec .ret s = .next { s with pc := s.stackRead s.sp } := execRet_eq s

end

/-- The state after an instruction, from an equation for what it answers. -/
theorem eq_of_exec {i : Instr} {s t u : State} (he : exec i s = .next t)
    (h : exec i s = .next u) : t = u := by
  cases he.symm.trans h
  rfl

/-- An execution fault leaves `pc` (R269). -/
theorem pc_of_exec_fault {i : Instr} {s t : State} (hc : s.faultCause = 0)
    (he : exec i s = .next t) (ht : t.faultCause ≠ 0) : t.pc = s.pc := by
  rcases exec_cause he with h | ⟨c, -, rfl⟩
  · exact absurd (h.trans hc) ht
  · rfl

/-- Whatever is no control transfer and does not fault passes its own words (R25). -/
theorem pc_of_exec_sequential {i : Instr} {s t : State} (he : exec i s = .next t)
    (ht : t.faultCause = 0) (ho : i.raw.op ∉ transfers) :
    t.pc = s.pc + BitVec.ofNat 16 i.length := by
  cases exec_inv he with
  | fault c => exact absurd ht (faultCause_takeFault_ne_zero s _ _)
  | called x hi => exact absurd (by simp [hi, Instr.raw, transfers]) ho
  | jump x hj => exact absurd hj ho
  | reg | ram | flags | pushed | popped | fall => rfl

/-- CALL that does not fault goes to its target (R218). -/
theorem pc_of_exec_call {x : Word} {s t : State} (he : exec (.call x) s = .next t)
    (ht : t.faultCause = 0) : t.pc = x := by
  rcases pushStep_cases (.call x) (trunc16 (uval s.pc + 2)) (fun u => u.jumpTo x) s with
    ⟨-, h⟩ | ⟨-, h⟩
  · obtain rfl := eq_of_exec he h
    exact absurd ht (faultCause_takeFault_ne_zero s _ _)
  · rw [eq_of_exec he h]
    rfl

/-- Settles O22: the step is `exec` of the instruction whose words stand at `pc`, and `pc` moves as
that instruction's own lemma says. -/
theorem stepMovesPcByLengthOrToTarget : Obligations.StepMovesPcByLengthOrToTarget := by
  refine ⟨fun s t i rest hl hc hp h => ?_, fun s t w0 rest r hr hd h => ?_⟩
  · have hr := readyAt_of_encode hl hc hp
    have he : exec i s = .next t := (step_of_encode hr).symm.trans h
    refine ⟨length_eq_lengthOf i, pc_of_exec_fault hc he, fun ht => ⟨fun ho => ?_, ?_, ?_, ?_⟩⟩
    · rw [pc_of_exec_sequential he ht ho, uval_pc_add_length hr]
    · rintro x (rfl | rfl)
      · rw [eq_of_exec he (exec_jmp x s)]
      · exact pc_of_exec_call he ht
    · rintro rfl
      rw [eq_of_exec he (exec_ret s)]
    · refine ⟨?_, ?_, ?_, ?_, ?_, ?_⟩ <;> rintro x rfl
      · rw [eq_of_exec he (exec_jeq x s)]
      · rw [eq_of_exec he (exec_jne x s)]
      · rw [eq_of_exec he (exec_jgt x s)]
      · rw [eq_of_exec he (exec_jge x s)]
      · rw [eq_of_exec he (exec_jlt x s)]
      · rw [eq_of_exec he (exec_jle x s)]
  · cases (step_of_bad hr hd).symm.trans h
    exact ⟨faultCause_takeFault_ne_zero s _ _, rfl⟩

end Sys2Proof.Machine
end

section
/-! PROOFS. Who writes the flags, RAM, STACK, the registers and `sp`, read off the effects of an instruction; and on what its result depends. -/

namespace Sys2Proof.Machine

/-! ## Who writes what -/

section
variable {i : Instr} {s t : State} (he : exec i s = .next t)
include he

theorem flagsKept_of_exec (ho : i.raw.op ≠ .CMP) : FlagsKept s t := by
  cases exec_inv he with
  | flags a b h => exact absurd h ho
  | _ => exact ⟨rfl, rfl⟩

theorem flags_exclusive_of_exec_cmp (ho : i.raw.op = .CMP) : ¬ (t.lt = true ∧ t.gt = true) := by
  cases i with
  | cmpReg d r => cases he; exact cmpFlags_exclusive _ _
  | cmpImm d k => cases he; exact cmpFlags_exclusive _ _
  | _ => cases ho

theorem ram_eq_of_exec (ho : ¬ (i.raw.op = .MOV ∧ i.raw.mode ≠ .INDIRECT)) : t.ram = s.ram := by
  cases exec_inv he with
  | ram p v _ h hm => exact absurd ⟨h, hm⟩ ho
  | _ => rfl

theorem ramRead_of_exec_ne {p : Reg} (hp : i.raw.operands[0]? = some p.ordinal) {a : Word}
    (ha : a ≠ s.reg p) : t.ramRead a = s.ramRead a := by
  cases exec_inv he with
  | ram q v hq =>
    obtain rfl : p = q := Reg.ordinal_injective (Option.some.inj (hp.symm.trans hq))
    exact State.ramRead_ramWrite_ne s v ha
  | _ => rfl

theorem stack_eq_of_exec (ho : i.raw.op ∉ [Opcode.PUSH, .CALL]) : t.stack = s.stack := by
  cases exec_inv he with
  | pushed v h => simp [h] at ho
  | called x h => simp [h, Instr.raw] at ho
  | _ => rfl

theorem stackRead_of_exec_ne {a : Word} (ha : a ≠ s.sp + 1) : t.stackRead a = s.stackRead a := by
  cases exec_inv he with
  | pushed v => exact State.stackRead_push_ne s v ha
  | called x => exact State.stackRead_push_ne s _ ha
  | _ => rfl

theorem regs_eq_of_exec
    (ho : i.raw.op ∉ registerWriters ∨ (i.raw.op = .MOV ∧ i.raw.mode ≠ .INDIRECT)) :
    t.regs = s.regs := by
  cases exec_inv he with
  | reg d v _ h hm =>
    rcases ho with ho | ⟨hmov, hi⟩
    · exact absurd h ho
    · exact absurd (hm hmov) hi
  | popped d h => simp [h, Instr.raw, registerWriters] at ho
  | _ => rfl

theorem reg_of_exec_ne {r : Reg} (hr : i.raw.operands[0]? ≠ some r.ordinal) :
    t.reg r = s.reg r := by
  cases exec_inv he with
  | reg d v hd => exact State.reg_setReg_ne s v fun e => hr (e ▸ hd)
  | popped d h => exact State.reg_setReg_ne s _ fun e => hr (by rw [h, e]; rfl)
  | _ => rfl

theorem sp_eq_of_exec (ho : i.raw.op ∉ [Opcode.PUSH, .POP, .CALL]) : t.sp = s.sp := by
  cases exec_inv he with
  | pushed v h => simp [h] at ho
  | called x h => simp [h, Instr.raw] at ho
  | popped d h => simp [h, Instr.raw] at ho
  | _ => rfl

end

/-- Settles O56: the frames of registers and `sp`, from the effects of an instruction. -/
theorem registersAndSpHaveOnlyTheirWriters : Obligations.RegistersAndSpHaveOnlyTheirWriters :=
  fun _ _ _ he =>
    ⟨fun ho r => congrArg (RegFile.get · r) (regs_eq_of_exec he ho),
      fun _ hr => reg_of_exec_ne he hr, sp_eq_of_exec he⟩

/-! ## What a result depends on

An update `f` of the state that stays clear of what every instruction uses, and of what the
instruction at hand uses beyond that, can be made before the instruction or after it. -/

/-- The answer of an instruction with `f` applied to the next state. -/
def carry (f : State → State) : Result → Result
  | .next t => .next (f t)
  | .fault r => .fault r
  | .refused r => .refused r

/-- `f` leaves the registers, `pc` and `sp` alone, and makes no difference to writing them or the
fault record. -/
structure Aside (f : State → State) : Prop where
  reg : ∀ s r, (f s).reg r = s.reg r
  pc : ∀ s, (f s).pc = s.pc
  sp : ∀ s, (f s).sp = s.sp
  setReg : ∀ s d v, (f s).setReg d v = f (s.setReg d v)
  setSp : ∀ s v, (f s).setSp v = f (s.setSp v)
  jumpTo : ∀ s x, (f s).jumpTo x = f (s.jumpTo x)
  advance : ∀ s n, (f s).advance n = f (s.advance n)
  takeFault : ∀ s c w, (f s).takeFault c w = f (s.takeFault c w)

/-- `f` leaves alone what `i` reads in `s`, and makes no difference to what `i` writes, of the flags,
RAM and STACK. -/
structure Apart (f : State → State) (i : Instr) (s : State) : Prop where
  condition : i.raw.op ∈ conditionalJumps → (f s).lt = s.lt ∧ (f s).gt = s.gt
  compare : i.raw.op = .CMP → ∀ l g, (f s).setFlags l g = f (s.setFlags l g)
  load : i.raw.op = .MOV → i.raw.mode = .INDIRECT → ∀ p : Reg,
    i.raw.operands[1]? = some p.ordinal → (f s).ramRead (s.reg p) = s.ramRead (s.reg p)
  store : i.raw.op = .MOV → i.raw.mode ≠ .INDIRECT →
    ∀ a v, (f s).ramWrite a v = f (s.ramWrite a v)
  top : i.raw.op ∈ [Opcode.POP, .RET] → (f s).stackRead s.sp = s.stackRead s.sp
  push : i.raw.op ∈ [Opcode.PUSH, .CALL] → ∀ v, (f s).push v = f (s.push v)

section
variable {f : State → State} (hf : Aside f) {s : State}
include hf

theorem writeRegThen3_carry (d : Reg) {v w : Word} (hv : v = w) :
    writeRegThen3 d v (f s) = carry f (writeRegThen3 d w s) := by
  simp only [writeRegThen3, carry, hv, hf.setReg, hf.advance]

theorem aluStep_carry (op : Word → Word → Word) (d : Reg) {b c : Word} (hb : b = c) :
    aluStep op d b (f s) = carry f (aluStep op d c s) :=
  writeRegThen3_carry hf d (congrArg₂ op (hf.reg s d) hb)

theorem divideStep_carry (op : Word → Word → Word) (i : Instr) (d : Reg) {b c : Word}
    (hb : b = c) : divideStep op i d b (f s) = carry f (divideStep op i d c s) := by
  subst hb
  unfold divideStep
  split
  · simp only [carry, hf.takeFault]
  · exact aluStep_carry hf op d rfl

theorem execInc_carry (d : Reg) : execInc d (f s) = carry f (execInc d s) := by
  simp only [execInc, carry, hf.reg, hf.setReg, hf.advance]

theorem storeThen3_carry (hw : ∀ a v, (f s).ramWrite a v = f (s.ramWrite a v)) (p : Reg)
    {v w : Word} (hv : v = w) : storeThen3 p v (f s) = carry f (storeThen3 p w s) := by
  simp only [storeThen3, effectiveAddress, carry, hv, hf.reg, hw, hf.advance]

theorem compareStep_carry (hw : ∀ l g, (f s).setFlags l g = f (s.setFlags l g)) (d : Reg)
    {b c : Word} (hb : b = c) : compareStep d b (f s) = carry f (compareStep d c s) := by
  simp only [compareStep, carry, hb, hf.reg, hw, hf.advance]

theorem jumpStep_carry {b c : Bool} (hb : b = c) (x : Word) :
    jumpStep b x (f s) = carry f (jumpStep c x s) := by
  subst hb
  cases b
  · exact congrArg _ (hf.advance s 2)
  · exact congrArg _ (hf.jumpTo s x)

theorem pushStep_carry (hw : ∀ v, (f s).push v = f (s.push v)) (i : Instr) {v w : Word}
    (hv : v = w) (go : State → State) (hg : ∀ u, go (f u) = f (go u)) :
    pushStep i v go (f s) = carry f (pushStep i w go s) := by
  subst hv
  unfold pushStep
  rw [hf.sp]
  split
  · simp only [carry, hf.takeFault]
  · simp only [carry, hw, hg]

theorem execPop_carry (hr : (f s).stackRead s.sp = s.stackRead s.sp) (d : Reg) :
    execPop d (f s) = carry f (execPop d s) := by
  unfold execPop
  rw [hf.sp, hr]
  split
  · simp only [carry, hf.takeFault]
  · simp only [carry, hf.setReg, hf.setSp, hf.advance]

theorem execRet_carry (hr : (f s).stackRead s.sp = s.stackRead s.sp) :
    execRet (f s) = carry f (execRet s) := by
  simp only [execRet_eq, carry, hf.sp, hr, hf.jumpTo]

/-- An instruction carries along every update that stays clear of what it uses. -/
theorem exec_carry {i : Instr} (h : Apart f i s) : exec i (f s) = carry f (exec i s) := by
  cases i with
  | ldReg d r => exact writeRegThen3_carry hf d (hf.reg s r)
  | notReg d r => exact writeRegThen3_carry hf d (congrArg notOp (hf.reg s r))
  | ldImm d k | notImm d k => exact writeRegThen3_carry hf d rfl
  | movLoad d p =>
    refine writeRegThen3_carry hf d ?_
    simpa only [srcIndirect, effectiveAddress, hf.reg] using h.load rfl rfl p rfl
  | movStoreReg p r =>
    exact storeThen3_carry hf (h.store rfl (by simp [Instr.raw])) p (hf.reg s r)
  | movStoreImm p k => exact storeThen3_carry hf (h.store rfl (by simp [Instr.raw])) p rfl
  | addReg d r | subReg d r | mulReg d r | andReg d r | orReg d r | xorReg d r | shlReg d r
  | shrReg d r => exact aluStep_carry hf _ d (hf.reg s r)
  | addImm d k | subImm d k | mulImm d k | andImm d k | orImm d k | xorImm d k | shlImm d k
  | shrImm d k => exact aluStep_carry hf _ d rfl
  | divReg d r | modReg d r => exact divideStep_carry hf _ _ d (hf.reg s r)
  | divImm d k | modImm d k => exact divideStep_carry hf _ _ d rfl
  | inc d => exact execInc_carry hf d
  | jmp x => exact jumpStep_carry hf rfl x
  | jeq x | jne x | jgt x | jge x | jlt x | jle x =>
    obtain ⟨hl, hg⟩ := h.condition (by simp [Instr.raw, conditionalJumps])
    exact jumpStep_carry hf (by rw [hl, hg]) x
  | call x =>
    have hv : trunc16 (uval (f s).pc + 2) = trunc16 (uval s.pc + 2) := by rw [hf.pc]
    exact pushStep_carry hf (h.push (by simp [Instr.raw])) _ hv (fun u => u.jumpTo x)
      fun u => hf.jumpTo u x
  | ret => exact execRet_carry hf (h.top (by simp [Instr.raw]))
  | cmpReg d r => exact compareStep_carry hf (h.compare rfl) d (hf.reg s r)
  | cmpImm d k => exact compareStep_carry hf (h.compare rfl) d rfl
  | pushReg r =>
    exact pushStep_carry hf (h.push (by simp [Instr.raw])) _ (hf.reg s r) (fun u => u.advance 2)
      fun u => hf.advance u 2
  | pushImm k =>
    exact pushStep_carry hf (h.push (by simp [Instr.raw])) _ rfl (fun u => u.advance 2)
      fun u => hf.advance u 2
  | pop d => exact execPop_carry hf (h.top (by simp [Instr.raw])) d

theorem exec_next_carry {i : Instr} {t : State} (h : Apart f i s) (he : exec i s = .next t) :
    exec i (f s) = .next (f t) := by
  rw [exec_carry hf h, he, carry]

end

/-! ## The Program -/

theorem aside_program (p : List Word) : Aside fun s => { s with program := p } := by
  constructor <;> intros <;> rfl

theorem apart_program (p : List Word) (i : Instr) (s : State) :
    Apart (fun s => { s with program := p }) i s where
  condition := fun _ => ⟨rfl, rfl⟩
  compare := fun _ _ _ => rfl
  load := fun _ _ _ _ => rfl
  store := fun _ _ _ _ => rfl
  top := fun _ => rfl
  push := fun _ _ => rfl

/-- A step keeps the Program (R34). -/
theorem step_program {s t : State} (h : step s = .next t) : t.program = s.program := by
  obtain ⟨w0, rest, -, ⟨i, -, he⟩ | ⟨r, -, rfl⟩⟩ := step_cases h
  · exact exec_program he
  · rfl

/-- Settles O57: no instruction uses the Program, so a change of it is carried along. -/
theorem programIsNeitherReadAsDataNorWritten : Obligations.ProgramIsNeitherReadAsDataNorWritten :=
  ⟨fun _ _ => step_program,
    fun i s _ p he => exec_next_carry (aside_program p) (apart_program p i s) he⟩

/-! ## The flags -/

theorem aside_flags (l g : Bool) : Aside fun s => { s with lt := l, gt := g } := by
  constructor <;> intros <;> rfl

theorem apart_flags (l g : Bool) {i : Instr} (s : State) (ho : i.raw.op ≠ .CMP)
    (hj : i.raw.op ∉ conditionalJumps) : Apart (fun s => { s with lt := l, gt := g }) i s where
  condition := fun h => absurd h hj
  compare := fun h => absurd h ho
  load := fun _ _ _ _ => rfl
  store := fun _ _ _ _ => rfl
  top := fun _ => rfl
  push := fun _ _ => rfl

/-- CMP overwrites both flags, whatever they were (R200). -/
theorem exec_cmp_over_flags {i : Instr} (ho : i.raw.op = .CMP) (s : State) (l g : Bool) :
    exec i { s with lt := l, gt := g } = exec i s := by
  cases i with
  | cmpReg d r | cmpImm d k => rfl
  | _ => cases ho

/-- Settles O53: CMP alone writes the flags, the six jumps read them, and everything else carries
them along. -/
theorem flagsAreCmpsAndTheJumpsAlone : Obligations.FlagsAreCmpsAndTheJumpsAlone :=
  ⟨fun _ s _ he =>
    ⟨flagsKept_of_exec he, flags_exclusive_of_exec_cmp he,
      fun l g ho => (exec_cmp_over_flags ho s l g).trans he,
      fun l g ho hj => exec_next_carry (aside_flags l g) (apart_flags l g s ho hj) he⟩,
    fun x _ _ _ =>
      ⟨exec_jeq x _, exec_jne x _, exec_jgt x _, exec_jge x _, exec_jlt x _, exec_jle x _⟩⟩

/-! ## RAM -/

theorem aside_ram (m : Memory) : Aside fun s => { s with ram := m } := by
  constructor <;> intros <;> rfl

/-- A change of RAM is apart from an instruction that is no MOV, and from a load of a word that it
keeps. -/
theorem apart_ram (m : Memory) {i : Instr} {s : State}
    (hm : i.raw.op = .MOV → i.raw.mode = .INDIRECT ∧ ∀ p : Reg,
      i.raw.operands[1]? = some p.ordinal → m.read (uval (s.reg p)) = s.ramRead (s.reg p)) :
    Apart (fun s => { s with ram := m }) i s where
  condition := fun _ => ⟨rfl, rfl⟩
  compare := fun _ _ _ => rfl
  load := fun ho _ => (hm ho).2
  store := fun ho hi => absurd (hm ho).1 hi
  top := fun _ => rfl
  push := fun _ _ => rfl

theorem exec_over_ram {i : Instr} {s t : State} (he : exec i s = .next t) (ho : i.raw.op ≠ .MOV)
    (m : Memory) : exec i { s with ram := m } = .next { t with ram := m } :=
  exec_next_carry (aside_ram m) (apart_ram m fun h => absurd h ho) he

/-- The load form reads one RAM word, at its pointer (R121). -/
theorem exec_load_over_ram {i : Instr} {s t : State} (he : exec i s = .next t) {p : Reg}
    (hi : i.raw.mode = .INDIRECT) (hp : i.raw.operands[1]? = some p.ordinal) {m : Memory}
    (hr : m.read (uval (s.reg p)) = s.ramRead (s.reg p)) :
    exec i { s with ram := m } = .next { t with ram := m } := by
  refine exec_next_carry (aside_ram m) (apart_ram m fun _ => ⟨hi, fun q hq => ?_⟩) he
  obtain rfl : p = q := Reg.ordinal_injective (Option.some.inj (hp.symm.trans hq))
  exact hr

/-- A store form stores one and the same word over every RAM (R122, R123). -/
theorem exec_storing_mov {i : Instr} {p : Reg} (ho : i.raw.op = .MOV)
    (hm : i.raw.mode ≠ .INDIRECT) (hp : i.raw.operands[0]? = some p.ordinal) (s : State) :
    ∃ v, ∀ m, exec i { s with ram := m } = storeThen3 p v { s with ram := m } := by
  cases i with
  | movStoreReg q r =>
    obtain rfl : q = p := Reg.ordinal_injective (Option.some.inj hp)
    exact ⟨s.reg r, fun _ => rfl⟩
  | movStoreImm q k =>
    obtain rfl : q = p := Reg.ordinal_injective (Option.some.inj hp)
    exact ⟨k, fun _ => rfl⟩
  | movLoad d q => exact absurd rfl hm
  | _ => cases ho

/-- What a store form does over one RAM and over another. -/
theorem exec_store_over_ram {i : Instr} {s t : State} (he : exec i s = .next t) {p : Reg}
    (ho : i.raw.op = .MOV) (hm : i.raw.mode ≠ .INDIRECT)
    (hp : i.raw.operands[0]? = some p.ordinal) (m : Memory) :
    ∃ t', exec i { s with ram := m } = .next t' ∧ { t' with ram := t.ram } = t ∧
      (s.ram.wf → m.wf →
        t'.ramRead (effectiveAddress p s) = t.ramRead (effectiveAddress p s)) := by
  obtain ⟨v, hv⟩ := exec_storing_mov ho hm hp s
  obtain rfl := eq_of_exec he (hv s.ram)
  refine ⟨_, hv m, rfl, fun hs hm => ?_⟩
  exact (Memory.read_write_same hm _ v).trans (Memory.read_write_same hs _ v).symm

/-- Settles O54: the frame of RAM from the effects, and what a result depends on from the three ways
a MOV or another instruction meets RAM. -/
theorem ramIsReachedOnlyByMov : Obligations.RamIsReachedOnlyByMov := fun _ _ _ he =>
  ⟨fun ho a => congrArg (Memory.read · (uval a)) (ram_eq_of_exec he ho),
    fun _ _ _ hp => ⟨rfl, fun _ ha => ramRead_of_exec_ne he hp ha⟩,
    fun m ho => exec_over_ram he ho m,
    fun _ m ho hm hp => exec_store_over_ram he ho hm hp m,
    fun _ _ _ hm hp hr => exec_load_over_ram he hm hp hr⟩

/-! ## STACK -/

theorem aside_stack (m : Memory) : Aside fun s => { s with stack := m } := by
  constructor <;> intros <;> rfl

/-- A change of STACK is apart from an instruction that does not push, if it keeps the top word for
one that reads it. -/
theorem apart_stack (m : Memory) {i : Instr} {s : State} (hp : i.raw.op ∉ [Opcode.PUSH, .CALL])
    (hr : i.raw.op ∈ [Opcode.POP, .RET] → m.read (uval s.sp) = s.stackRead s.sp) :
    Apart (fun s => { s with stack := m }) i s where
  condition := fun _ => ⟨rfl, rfl⟩
  compare := fun _ _ _ => rfl
  load := fun _ _ _ _ => rfl
  store := fun _ _ _ _ => rfl
  top := hr
  push := fun h => absurd h hp

theorem exec_over_stack {i : Instr} {s t : State} (he : exec i s = .next t) {m : Memory}
    (hp : i.raw.op ∉ [Opcode.PUSH, .CALL])
    (hr : i.raw.op ∈ [Opcode.POP, .RET] → m.read (uval s.sp) = s.stackRead s.sp) :
    exec i { s with stack := m } = .next { t with stack := m } :=
  exec_next_carry (aside_stack m) (apart_stack m hp hr) he

/-- PUSH and CALL push one and the same word over every STACK, and go on at the same place (R218,
R240). -/
theorem exec_pushing {i : Instr} (ho : i.raw.op ∈ [Opcode.PUSH, .CALL]) (s : State) :
    ∃ v x, ∀ m, exec i { s with stack := m } =
      pushStep i v (fun u => u.jumpTo x) { s with stack := m } := by
  cases i with
  | pushReg r => exact ⟨s.reg r, s.pc + BitVec.ofNat 16 2, fun _ => rfl⟩
  | pushImm k => exact ⟨k, s.pc + BitVec.ofNat 16 2, fun _ => rfl⟩
  | call x => exact ⟨trunc16 (uval s.pc + 2), x, fun _ => rfl⟩
  | _ => simp [Instr.raw] at ho

theorem sp_eq_spMax_iff (s : State) : s.sp = Config.spMax ↔ uval s.sp = 65535 :=
  ⟨fun h => by rw [h]; rfl, fun h => BitVec.eq_of_toNat_eq h⟩

/-- What PUSH and CALL do over one STACK and over another. -/
theorem exec_push_over_stack {i : Instr} {s t : State} (he : exec i s = .next t)
    (ho : i.raw.op ∈ [Opcode.PUSH, .CALL]) (m : Memory) :
    ∃ t', exec i { s with stack := m } = .next t' ∧ { t' with stack := t.stack } = t ∧
      (uval s.sp < 65535 → s.stack.wf → m.wf →
        t'.stackRead (s.sp + 1) = t.stackRead (s.sp + 1)) ∧
      (uval s.sp = 65535 → t'.stack = m) := by
  obtain ⟨v, x, hv⟩ := exec_pushing ho s
  by_cases hs : s.sp = Config.spMax
  · obtain rfl := eq_of_exec he ((hv s.stack).trans (if_pos hs))
    have hsp := (sp_eq_spMax_iff s).mp hs
    exact ⟨_, (hv m).trans (if_pos hs), rfl, fun h => by omega, fun _ => rfl⟩
  · obtain rfl := eq_of_exec he ((hv s.stack).trans (if_neg hs))
    refine ⟨_, (hv m).trans (if_neg hs), rfl, fun _ hw hm => ?_, fun h => ?_⟩
    · exact (Memory.read_write_same hm _ v).trans (Memory.read_write_same hw _ v).symm
    · exact absurd ((sp_eq_spMax_iff s).mpr h) hs

/-- Settles O55: the frame of STACK from the effects, and what a result depends on from the three
ways an instruction meets STACK; none of the four stack instructions is a MOV. -/
theorem stackIsReachedOnlyThroughSp : Obligations.StackIsReachedOnlyThroughSp := by
  intro i s t he
  refine ⟨fun ho a => congrArg (Memory.read · (uval a)) (stack_eq_of_exec he ho),
    fun _ _ ha => stackRead_of_exec_ne he ha, fun m ho => ?_,
    fun m ho => exec_push_over_stack he ho m, fun m ho hr => ?_, fun ho => ?_⟩
  · simp only [List.mem_cons, List.not_mem_nil, or_false, not_or] at ho
    obtain ⟨hpush, hcall, hpop, hret⟩ := ho
    exact exec_over_stack he (by simp [hpush, hcall]) fun h => by simp [hpop, hret] at h
  · refine exec_over_stack he (fun h => ?_) fun _ => hr
    simp only [List.mem_cons, List.not_mem_nil, or_false] at ho h
    rcases ho with ho | ho <;> simp [ho] at h
  · have hmov : i.raw.op ≠ .MOV := fun e => by simp [e] at ho
    exact ⟨fun a => congrArg (Memory.read · (uval a)) (ram_eq_of_exec he fun h => hmov h.1),
      exec_over_ram he hmov⟩

end Sys2Proof.Machine
end

section
/-! PROOFS. The two memories as data: a canonical memory lists exactly what it reads, and a load after a store reads what the store left. -/

namespace Sys2Proof.Machine

/-! ## A canonical memory is what it reads -/

/-- A word that reads as other than the reset contents is listed. -/
theorem Memory.mem_of_read_ne {m : Memory} {a : Nat} (h : m.read a ≠ Config.unwritten) :
    (a, m.read a) ∈ m := by
  induction m with
  | nil => exact absurd rfl h
  | cons c m ih =>
    obtain ⟨k, w⟩ := c
    by_cases hk : k = a
    · simp [Memory.read, hk]
    · simp only [Memory.read, if_neg hk] at h ⊢
      exact List.mem_cons_of_mem _ (ih h)

/-- A listed word is read: rising addresses list none twice. -/
theorem Memory.read_of_mem {m : Memory} (hs : m.Pairwise fun a b => a.1 < b.1) {c : Nat × Word}
    (h : c ∈ m) : m.read c.1 = c.2 := by
  induction m with
  | nil => cases h
  | cons x m ih =>
    obtain ⟨habove, hs⟩ := List.pairwise_cons.mp hs
    rcases List.mem_cons.mp h with rfl | h
    · exact if_pos rfl
    · exact (if_neg (habove c h).ne).trans (ih hs h)

/-- A canonical memory lists a word at an address exactly when it reads so and the word is not the
reset contents (R60). -/
theorem Memory.mem_iff_read {m : Memory} (hm : m.wf) (c : Nat × Word) :
    c ∈ m ↔ c.1 < 65536 ∧ m.read c.1 = c.2 ∧ c.2 ≠ Config.unwritten := by
  obtain ⟨hs, hc⟩ := hm
  constructor
  · intro h
    obtain ⟨ha, hv⟩ := hc c h
    exact ⟨ha, Memory.read_of_mem hs h, hv⟩
  · rintro ⟨-, hr, hv⟩
    have hmem := Memory.mem_of_read_ne (hr.trans_ne hv)
    rwa [hr] at hmem

/-- Settles O58: equal reads list the same words, and rising addresses leave them one order. -/
theorem canonicalMemoriesWithEqualReadsAreEqual :
    Obligations.CanonicalMemoriesWithEqualReadsAreEqual := by
  intro m n hm hn hr
  refine hm.1.eq_of_mem_iff hn.1 fun c => ?_
  rw [Memory.mem_iff_read hm, Memory.mem_iff_read hn]
  exact and_congr_right fun ha => by rw [hr _ ha]

/-! ## A load after a store -/

/-- RAM read after a store: the stored word at its address, the old word at any other (R57, R60). -/
theorem State.ramRead_ramWrite {s : State} (h : s.ram.wf) (a v b : Word) :
    (s.ramWrite a v).ramRead b = if b = a then v else s.ramRead b := by
  split
  next hb => rw [hb, State.ramRead_ramWrite_same h]
  next hb => exact State.ramRead_ramWrite_ne s v hb

/-- The store form with a register source (R122). -/
theorem exec_movStoreReg (p r : Reg) (s : State) :
    exec (.movStoreReg p r) s = .next ((s.ramWrite (s.reg p) (s.reg r)).advance 3) := rfl

/-- The load form (R121). -/
theorem exec_movLoad (d p : Reg) (s : State) :
    exec (.movLoad d p) s = .next ((s.setReg d (s.ramRead (s.reg p))).advance 3) := rfl

/-- Settles O26: the store leaves the registers alone, so the load reads RAM after the store at the
address that q held before it. -/
theorem storedWordIsLoadedBack : Obligations.StoredWordIsLoadedBack := fun p r d q s hw =>
  ⟨_, _, exec_movStoreReg p r s, exec_movLoad d q _, by
    simp only [State.reg_advance, State.reg_setReg_same, State.ramRead_advance,
      State.reg_ramWrite, State.ramRead_ramWrite hw]⟩

end Sys2Proof.Machine
end

section
/-! PROOFS. The Codec: the decoder accepts exactly the words that begin with the encoding of its answer, and the words of an instruction are those of a well-formed pair. -/

namespace Sys2Proof

/-! ## Decoding and encoding -/

/-- What the form of an instruction's pair makes of some words is that instruction exactly when they
begin with its operand words. -/
theorem makes_iff_prefix {i : Instr} {f : Form} (hf : form i.raw.op i.raw.mode = some f)
    (ws : List Word) : f.makes ws i ↔ i.raw.operands <+: ws := by
  cases i <;> cases hf <;> simp [Form.makes, Instr.raw, List.cons_prefix_iff]

/-- The words a decoded instruction was read from begin with its encoding (R81, R88). -/
theorem encode_prefix_of_decode {w0 : Word} {ws : List Word} {i : Instr}
    (h : decode w0 ws = .ok i) : encode i <+: w0 :: ws := by
  have hw : i.word0 = w0 := word0_of_decode h
  obtain ⟨op, m, f, -, hf, ho⟩ := decode_ok h
  obtain ⟨rfl, rfl⟩ := raw_of_decodeOperands hf ho
  exact List.cons_prefix_cons.mpr ⟨hw, (makes_iff_prefix hf ws).mp (decodeOperands_ok ho)⟩

@[simp] theorem length_encode (i : Instr) : (encode i).length = i.length :=
  Nat.add_comm _ _

/-- Settles O1: the words of an instruction are its own word and its operands, and the decoder reads
it back from them. -/
theorem decodeOfEncodeIsIdentity : Obligations.DecodeOfEncodeIsIdentity := fun i rest =>
  ⟨i.word0, i.raw.operands, rfl, length_encode i, decode_word0 i rest⟩

/-- Settles O2: the words begin with the encoding, which has the instruction's length. -/
theorem encodeOfDecodeIsIdentity : Obligations.EncodeOfDecodeIsIdentity := fun w0 rest i h => by
  obtain ⟨tl, htl⟩ := encode_prefix_of_decode h
  rw [← htl]
  exact List.take_left' (length_encode i)

/-! ## The instruction word -/

theorem Opcode.ordinal_injective {a b : Opcode} (h : a.ordinal = b.ordinal) : a = b := by
  simpa using congrArg Opcode.ofOrdinal? h

theorem Mode.ordinal_injective {a b : Mode} (h : a.ordinal = b.ordinal) : a = b := by
  simpa using congrArg Mode.ofOrdinal? h

theorem codec_inj {a b : Opcode} {m n : Mode} : codec a m = codec b n ↔ a = b ∧ m = n := by
  refine ⟨fun h => ?_, fun ⟨ha, hm⟩ => by rw [ha, hm]⟩
  simpa using congrArg decodePair h

/-- Settles O3: the packed word gives the pair back whether or not the pair is legal, and each map of
ordinals has an inverse. -/
theorem codecRoundTripOnLegalPairs : Obligations.CodecRoundTripOnLegalPairs :=
  ⟨by decide, fun op m _ => decodePair_codec op m, fun _ _ => Opcode.ordinal_injective,
    fun _ _ => Mode.ordinal_injective⟩

/-- Settles O5: the operands stand in each row as they are, so what is left of the table is its
numbers, one packed pair for each row. -/
theorem encodingFollowsTheOpcodeTable : Obligations.EncodingFollowsTheOpcodeTable := by
  intro d s k
  simp only [encode, Instr.word0, Instr.raw, List.cons.injEq, and_true]
  decide

/-! ## Well-formed words -/

/-- The kinds that are read as a register ordinal (R85). -/
def OperandKind.readsReg : OperandKind → Bool
  | .r | .p => true
  | .k | .t => false

/-- Which of its operand words a form reads as a register ordinal. -/
def Form.readsReg : Form → List Bool
  | .none _ => []
  | .reg _ => [true]
  | .word _ => [false]
  | .regReg _ => [true, true]
  | .regWord _ => [true, false]

/-- The decoder's table of legal pairs and the table of operand kinds list the same pairs, with
operands that are read alike (R87). -/
theorem map_readsReg_operandKinds (op : Opcode) (m : Mode) :
    (operandKinds op m).map (List.map OperandKind.readsReg) = (form op m).map Form.readsReg := by
  cases op <;> cases m <;> rfl

/-- A word is at most 7 exactly when it is the ordinal of a register (R22, R85). -/
theorem uval_le_seven_iff (w : Word) : uval w ≤ 7 ↔ ∃ r : Reg, w = r.ordinal := by
  rw [← Nat.not_lt, ← Reg.ofOrdinal?_eq_none_iff, ← ne_eq, Option.ne_none_iff_exists']
  constructor
  · rintro ⟨r, hr⟩
    exact ⟨r, (Reg.ordinal_of_ofOrdinal? hr).symm⟩
  · rintro ⟨r, rfl⟩
    exact ⟨r, Reg.ofOrdinal?_ordinal r⟩

/-- A word fits its kind unless it should name a register and names none (R85). -/
theorem admits_iff (kd : OperandKind) (w : Word) :
    kd.admits w = true ↔ (kd.readsReg = true → ∃ r : Reg, w = r.ordinal) := by
  rw [← uval_le_seven_iff]
  cases kd <;> simp [OperandKind.admits, OperandKind.readsReg]

/-- The words `ws` are operands for a form of this reading: as many, and the ordinal of a register
where one is read (R84, R85). -/
def ReadAs (reads : List Bool) (ws : List Word) : Prop :=
  List.Forall₂ (fun b w => b = true → ∃ r : Reg, w = r.ordinal) reads ws

theorem operandsFit_iff (kds : List OperandKind) (ws : List Word) :
    operandsFit kds ws = true ↔ ReadAs (kds.map OperandKind.readsReg) ws := by
  unfold ReadAs
  induction kds generalizing ws with
  | nil => cases ws <;> simp [operandsFit]
  | cons kd kds ih => cases ws <;> simp [operandsFit, admits_iff, ih]

/-- The check on a pair and its operand words, in terms of the decoder's table. -/
theorem wellFormed_iff_form (op : Opcode) (m : Mode) (ops : List Word) :
    (RawInstr.mk op m ops).wellFormed = true ↔
      ∃ f, form op m = some f ∧ ReadAs f.readsReg ops := by
  have hf := map_readsReg_operandKinds op m
  unfold RawInstr.wellFormed
  cases hk : operandKinds op m with
  | none =>
    have hn : form op m = none := by simpa [hk] using hf.symm
    simp [hn]
  | some kds =>
    rw [hk] at hf
    obtain ⟨f, hs, hr⟩ := Option.map_eq_some_iff.mp hf.symm
    simp [hs, hr, operandsFit_iff]

/-- A form reads an instruction from operand words that it fits. -/
theorem exists_decodeOperands {f : Form} {ws : List Word} (h : ReadAs f.readsReg ws) :
    ∃ i, decodeOperands f ws = .ok i := by
  cases f with
  | none i => exact ⟨i, rfl⟩
  | reg mk =>
    obtain ⟨a, rfl⟩ : ∃ a : Reg, ws = [a.ordinal] := by
      simpa [ReadAs, Form.readsReg, List.forall₂_cons_left_iff] using h
    exact ⟨mk a, by simp [decodeOperands]⟩
  | word mk =>
    obtain ⟨w, rfl⟩ : ∃ w, ws = [w] := by
      simpa [ReadAs, Form.readsReg, List.forall₂_cons_left_iff] using h
    exact ⟨mk w, rfl⟩
  | regReg mk =>
    obtain ⟨a, b, rfl⟩ : ∃ a b : Reg, ws = [a.ordinal, b.ordinal] := by
      simpa [ReadAs, Form.readsReg, List.forall₂_cons_left_iff] using h
    exact ⟨mk a b, by simp [decodeOperands]⟩
  | regWord mk =>
    obtain ⟨a, w, rfl⟩ : ∃ (a : Reg) (w : Word), ws = [a.ordinal, w] := by
      simpa [ReadAs, Form.readsReg, List.forall₂_cons_left_iff] using h
    exact ⟨mk a w, by simp [decodeOperands]⟩

/-- The operands of an instruction are ones its form reads. -/
theorem readAs_raw {i : Instr} {f : Form} (hf : form i.raw.op i.raw.mode = some f) :
    ReadAs f.readsReg i.raw.operands := by
  cases i <;> cases hf <;> simp [ReadAs, Form.readsReg, Instr.raw]

/-- The well-formed pairs with their operand words are those of the instructions (R84, R85, R87). -/
theorem wellFormed_iff_exists_raw (x : RawInstr) :
    x.wellFormed = true ↔ ∃ i : Instr, i.raw = x := by
  obtain ⟨op, m, ops⟩ := x
  rw [wellFormed_iff_form]
  constructor
  · rintro ⟨f, hf, hr⟩
    obtain ⟨i, hi⟩ := exists_decodeOperands hr
    obtain ⟨rfl, rfl⟩ := raw_of_decodeOperands hf hi
    have hp : i.raw.operands <+: ops := (makes_iff_prefix hf ops).mp (decodeOperands_ok hi)
    have hl : i.raw.operands.length = ops.length :=
      (readAs_raw hf).length_eq.symm.trans hr.length_eq
    exact ⟨i, congrArg (RawInstr.mk _ _) (hp.eq_of_length hl)⟩
  · rintro ⟨i, hi⟩
    obtain ⟨rfl, rfl, rfl⟩ : i.raw.op = op ∧ i.raw.mode = m ∧ i.raw.operands = ops := by simp [hi]
    obtain ⟨f, hf⟩ : ∃ f, form i.raw.op i.raw.mode = some f := by cases i <;> exact ⟨_, rfl⟩
    exact ⟨f, hf, readAs_raw hf⟩

/-- The decoder reads an instruction of that length from a packed pair and `ops` exactly when they are
the pair and the operands of the instruction. -/
theorem decode_codec_ok_iff (op : Opcode) (m : Mode) (ops rest : List Word) (i : Instr) :
    decode (codec op m) (ops ++ rest) = .ok i ∧ i.length = 1 + ops.length ↔
      i.raw = ⟨op, m, ops⟩ := by
  constructor
  · rintro ⟨hd, hl⟩
    obtain ⟨hw, tl, ho⟩ := List.cons_prefix_cons.mp (encode_prefix_of_decode hd)
    obtain ⟨hop, hm⟩ := codec_inj.mp hw
    have hops : i.raw.operands = ops := List.append_inj_left ho (Nat.add_left_cancel hl)
    rw [← hop, ← hm, ← hops]
  · intro h
    have hd := decode_word0 i rest
    rw [Instr.word0, h] at hd
    exact ⟨hd, by rw [Instr.length, h]⟩

/-- Settles O4: both sides say that the pair and the words are those of some instruction. -/
theorem decoderAcceptsExactlyWellFormedWords :
    Obligations.DecoderAcceptsExactlyWellFormedWords := fun op m ops rest => by
  rw [wellFormed_iff_exists_raw]
  exact exists_congr (decode_codec_ok_iff op m ops rest)

end Sys2Proof
end

section
/-! PROOFS. A step runs what the decoder reads at `pc`: an instruction's own words, and a table word placed there. -/

namespace Sys2Proof.Machine

/-- Settles O12. -/
theorem stepRunsDecodedInstruction : Obligations.StepRunsDecodedInstruction :=
  fun s w0 rest i hr hd => by rw [step_of_ready hr, hd]

/-- Settles O13: the decoder reads the instruction back from its words. -/
theorem stepRunsEncodedInstruction : Obligations.StepRunsEncodedInstruction :=
  fun _ _ _ hl hc hp => step_of_encode (readyAt_of_encode hl hc hp)

/-! ## Placing words in the Program -/

theorem length_placeWords_le (p : List Word) (n : Nat) (ws : List Word) :
    (placeWords p n ws).length ≤ 65535 :=
  List.length_take_le _ _

/-- Words placed where they fit stand in the Program from their offset on. -/
theorem isPrefix_drop_placeWords (p : List Word) {n : Nat} {ws : List Word}
    (h : n + ws.length ≤ 65535) : ws <+: (placeWords p n ws).drop n := by
  have hn : (p.take n ++ List.replicate (n - p.length) 0).length = n := by
    rw [List.length_append, List.length_take, List.length_replicate]
    omega
  have hws : ws.length ≤ Config.progLenMax - n := Nat.le_sub_of_add_le' h
  rw [placeWords, List.append_assoc, List.drop_take, List.drop_left' hn, List.take_append,
    List.take_of_length_le hws]
  exact ⟨_, rfl⟩

/-- A table word always stands for three words. -/
theorem length_tableWords (nbits w : Nat) : (tableWords nbits w).length = 3 := rfl

/-- The instruction of a table word is the one whose encoding its words begin with. -/
theorem encode_prefix_of_decodeTableWord {nbits w : Nat} {i : Instr}
    (h : decodeTableWord nbits w = some i) : encode i <+: tableWords nbits w := by
  unfold decodeTableWord at h
  split at h
  · cases h
  next w0 rest hw =>
    split at h
    · next hd =>
      cases h
      rw [hw]
      exact encode_prefix_of_decode hd
    · cases h

/-- Settles O15: the encoding of `i` begins the table word's three words, which begin what stands at
`pc` once they are placed. -/
theorem placedTableWordIsTheNextInstruction : Obligations.PlacedTableWordIsTheNextInstruction := by
  intro s nbits w i hpc hd
  have hfit : uval s.pc + (tableWords nbits w).length ≤ 65535 := by
    rw [length_tableWords]
    omega
  obtain ⟨rest, hrest⟩ :=
    (encode_prefix_of_decodeTableWord hd).trans (isPrefix_drop_placeWords s.program hfit)
  exact stepRunsEncodedInstruction _ i rest (length_placeWords_le _ _ _) rfl hrest.symm

end Sys2Proof.Machine
end

section
/-! PROOFS. LD and MOV: what each form answers, and its result with the frame; and the spec's example words. -/

namespace Sys2Proof

/-- Words that are an instruction's encoding decode to it (R81, R88). -/
theorem decode_of_encode_eq {i : Instr} {w0 : Word} {ws : List Word} (h : encode i = w0 :: ws) :
    decode w0 ws = .ok i := by
  obtain ⟨rfl, rfl⟩ := List.cons.inj h
  simpa using decode_word0 i []

/-- Settles O6: each example is the encoding of the instruction it names. -/
theorem specExampleWordsDecode : Obligations.SpecExampleWordsDecode := by
  refine ⟨?_, ?_, ?_, ?_, ?_, ?_, ?_, ?_, ?_, ?_⟩ <;> exact decode_of_encode_eq (by decide)

end Sys2Proof

namespace Sys2Proof.Machine

/-! ## What each form answers -/

/-- LD from a register (R120). -/
theorem exec_ldReg (d r : Reg) (s : State) :
    exec (.ldReg d r) s = .next ((s.setReg d (s.reg r)).advance 3) := rfl

/-- LD of a literal (R120). -/
theorem exec_ldImm (d : Reg) (k : Word) (s : State) :
    exec (.ldImm d k) s = .next ((s.setReg d k).advance 3) := rfl

/-- The store form with a literal source (R123). -/
theorem exec_movStoreImm (p : Reg) (k : Word) (s : State) :
    exec (.movStoreImm p k) s = .next ((s.ramWrite (s.reg p) k).advance 3) := rfl

/-! ## Results with their frames -/

/-- Settles O23: both modes answer a register write and an advance by 3. -/
theorem ldCopiesSourceToRegister : Obligations.LdCopiesSourceToRegister := fun d r k s =>
  ⟨regWritten_of_exec (exec_ldReg d r s), regWritten_of_exec (exec_ldImm d k s)⟩

/-- Settles O24: the word written to `d` is read in the state before the step, so `d = p` needs no
case of its own. -/
theorem movLoadCopiesRamToRegister : Obligations.MovLoadCopiesRamToRegister := fun d p s =>
  regWritten_of_exec (exec_movLoad d p s)

/-- Settles O25: both forms answer a RAM write at the pointer's value; canonical RAM reads it back. -/
theorem movStoreWritesOneRamWord : Obligations.MovStoreWritesOneRamWord := fun p r k s hw =>
  ⟨ramWritten_of_exec hw (exec_movStoreReg p r s), ramWritten_of_exec hw (exec_movStoreImm p k s)⟩

end Sys2Proof.Machine
end

section
/-! PROOFS. ADD, SUB, MUL, INC, DIV and MOD: what each form answers, the word each computes in either reading, and the laws of truncating division. -/

namespace Sys2Proof.Machine

/-! ## What each form answers -/

section

variable (d r : Reg) (k : Word) (s : State)

/-- ADD of a register (R141). -/
theorem exec_addReg : exec (.addReg d r) s = aluStep addOp d (s.reg r) s := rfl

/-- ADD of a literal (R141). -/
theorem exec_addImm : exec (.addImm d k) s = aluStep addOp d k s := rfl

/-- SUB of a register (R142). -/
theorem exec_subReg : exec (.subReg d r) s = aluStep subOp d (s.reg r) s := rfl

/-- SUB of a literal (R142). -/
theorem exec_subImm : exec (.subImm d k) s = aluStep subOp d k s := rfl

/-- MUL by a register (R143). -/
theorem exec_mulReg : exec (.mulReg d r) s = aluStep mulOp d (s.reg r) s := rfl

/-- MUL by a literal (R143). -/
theorem exec_mulImm : exec (.mulImm d k) s = aluStep mulOp d k s := rfl

/-- INC (R146). -/
theorem exec_inc : exec (.inc d) s = .next ((s.setReg d (incOp (s.reg d))).advance 2) := rfl

/-- DIV by a register (R144). -/
theorem exec_divReg :
    exec (.divReg d r) s = divideStep divOp (.divReg d r) d (s.reg r) s := rfl

/-- DIV by a literal (R144). -/
theorem exec_divImm : exec (.divImm d k) s = divideStep divOp (.divImm d k) d k s := rfl

/-- MOD by a register (R145). -/
theorem exec_modReg :
    exec (.modReg d r) s = divideStep modOp (.modReg d r) d (s.reg r) s := rfl

/-- MOD by a literal (R145). -/
theorem exec_modImm : exec (.modImm d k) s = divideStep modOp (.modImm d k) d k s := rfl

end

/-- The shape of R140 is a register write: the operation's result in `d`, and an advance by 3. -/
theorem regWritten_of_alu {op : Word → Word → Word} {i : Instr} {d : Reg} {b : Word} {s : State}
    (h : exec i s = aluStep op d b s) : RegWritten i s d (op (s.reg d) b) 3 :=
  regWritten_of_exec h

/-! ## The wrapping operations, unsigned and signed -/

theorem uval_trunc16_natCast (n : Nat) : uval (trunc16 n) = n % 65536 := by
  exact_mod_cast uval_trunc16 n

theorem uval_addOp (a b : Word) : uval (addOp a b) = (uval a + uval b) % 65536 :=
  uval_trunc16_natCast (uval a + uval b)

theorem uval_subOp (a b : Word) : (uval (subOp a b) : Int) = ((uval a : Int) - uval b) % 65536 :=
  uval_trunc16 _

theorem uval_mulOp (a b : Word) : uval (mulOp a b) = uval a * uval b % 65536 :=
  uval_trunc16_natCast (uval a * uval b)

theorem uval_incOp (a : Word) : uval (incOp a) = (uval a + 1) % 65536 :=
  uval_trunc16_natCast (uval a + 1)

/-- `sval_emod` as a congruence, so that sums, differences and products of words inherit it. -/
theorem uval_modEq_sval (w : Word) : (uval w : Int) ≡ sval w [ZMOD 65536] :=
  (sval_emod w).symm

theorem addOp_eq_signed (a b : Word) : addOp a b = trunc16 (sval a + sval b) :=
  trunc16_eq_of_emod ((uval_modEq_sval a).add (uval_modEq_sval b))

theorem subOp_eq_signed (a b : Word) : subOp a b = trunc16 (sval a - sval b) :=
  trunc16_eq_of_emod ((uval_modEq_sval a).sub (uval_modEq_sval b))

theorem mulOp_eq_signed (a b : Word) : mulOp a b = trunc16 (sval a * sval b) :=
  trunc16_eq_of_emod ((uval_modEq_sval a).mul (uval_modEq_sval b))

theorem incOp_eq_signed (a : Word) : incOp a = trunc16 (sval a + 1) :=
  trunc16_eq_of_emod ((uval_modEq_sval a).add_right 1)

/-- Settles O27. -/
theorem addWrapsAtSixteenBits : Obligations.AddWrapsAtSixteenBits := fun d r k s =>
  ⟨⟨_, uval_addOp _ _, regWritten_of_alu (exec_addReg d r s)⟩,
    ⟨_, uval_addOp _ _, regWritten_of_alu (exec_addImm d k s)⟩⟩

/-- Settles O28. -/
theorem subTakesSourceFromDestination : Obligations.SubTakesSourceFromDestination := fun d r k s =>
  ⟨⟨_, uval_subOp _ _, regWritten_of_alu (exec_subReg d r s)⟩,
    ⟨_, uval_subOp _ _, regWritten_of_alu (exec_subImm d k s)⟩⟩

/-- Settles O29. -/
theorem mulKeepsLowSixteenBits : Obligations.MulKeepsLowSixteenBits := fun d r k s =>
  ⟨⟨_, uval_mulOp _ _, regWritten_of_alu (exec_mulReg d r s)⟩,
    ⟨_, uval_mulOp _ _, regWritten_of_alu (exec_mulImm d k s)⟩⟩

/-- Settles O30. -/
theorem incAddsOne : Obligations.IncAddsOne := fun d s =>
  ⟨_, uval_incOp _, regWritten_of_exec (exec_inc d s)⟩

/-- Settles O31: the two readings of a word are congruent modulo 65536, and each operation respects
the congruence. -/
theorem wrappingOpsAreTheSameSigned : Obligations.WrappingOpsAreTheSameSigned := by
  intro d r k s
  simp only [← addOp_eq_signed, ← subOp_eq_signed, ← mulOp_eq_signed, ← incOp_eq_signed]
  exact ⟨regWritten_of_alu (exec_addReg d r s), regWritten_of_alu (exec_addImm d k s),
    regWritten_of_alu (exec_subReg d r s), regWritten_of_alu (exec_subImm d k s),
    regWritten_of_alu (exec_mulReg d r s), regWritten_of_alu (exec_mulImm d k s),
    regWritten_of_exec (exec_inc d s)⟩

/-! ## Truncating division of integers -/

theorem natAbs_tmod_lt (a : Int) {b : Int} (hb : b ≠ 0) : (a.tmod b).natAbs < b.natAbs := by
  rw [Int.natAbs_tmod]
  exact Nat.mod_lt _ (Int.natAbs_pos.mpr hb)

/-- A truncated quotient is zero or has the sign of the product. -/
theorem tdiv_eq_zero_or_sign (a b : Int) : a.tdiv b = 0 ∨ (a.tdiv b).sign = (a * b).sign := by
  have hs := Int.sign_tdiv a b
  split at hs
  · exact .inl (Int.sign_eq_zero_iff_zero.mp hs)
  · exact .inr (hs.trans (Int.sign_mul a b).symm)

/-- A truncated remainder is zero or has the sign of the dividend. -/
theorem tmod_eq_zero_or_sign (a b : Int) : a.tmod b = 0 ∨ (a.tmod b).sign = a.sign := by
  have hs := Int.sign_tmod a b
  split at hs
  · exact .inl (Int.sign_eq_zero_iff_zero.mp hs)
  · exact .inr hs

/-- Settles O34: the model's two functions are the library's truncating division. -/
theorem truncatingDivisionLaws : Obligations.TruncatingDivisionLaws := by
  intro a b hb
  rw [trem_eq_tmod, tdiv_eq_tdiv]
  exact ⟨(Int.mul_tdiv_add_tmod a b).symm, Int.natAbs_tdiv a b, tdiv_eq_zero_or_sign a b,
    natAbs_tmod_lt a hb, tmod_eq_zero_or_sign a b⟩

/-- The one quotient of two words that is out of the signed range is -32768 / -1: a divisor of
magnitude 2 or more halves the dividend, and 0 or 1 cannot turn its sign. -/
theorem tdiv_range {a b : Int} (h1 : -32768 ≤ a) (h2 : a ≤ 32767) (h : ¬ (a = -32768 ∧ b = -1)) :
    -32768 ≤ a.tdiv b ∧ a.tdiv b ≤ 32767 := by
  rcases Nat.lt_or_ge 1 b.natAbs with hb | hb
  · have hq : (a.tdiv b).natAbs ≤ a.natAbs / 2 :=
      (Int.natAbs_tdiv a b).trans_le (Nat.div_le_div_left hb Nat.two_pos)
    omega
  · obtain rfl | rfl | rfl : b = 0 ∨ b = 1 ∨ b = -1 := by omega
    · simp
    · exact (Int.tdiv_one a).symm ▸ ⟨h1, h2⟩
    · rw [Int.tdiv_neg, Int.tdiv_one]
      omega

/-! ## DIV and MOD -/

theorem divOp_eq_tdiv (a b : Word) : divOp a b = trunc16 ((sval a).tdiv (sval b)) :=
  congrArg trunc16 (tdiv_eq_tdiv _ _)

/-- -32768 / -1 wraps (R144). -/
theorem divOp_overflow : divOp 0x8000 0xFFFF = 0x8000 := by decide

theorem sval_eq_min_iff (w : Word) : sval w = -32768 ↔ w = 0x8000 :=
  BitVec.toInt_inj (y := 0x8000)

theorem sval_eq_neg_one_iff (w : Word) : sval w = -1 ↔ w = 0xFFFF :=
  BitVec.toInt_inj (y := 0xFFFF)

/-- Every other quotient is exact (R144). -/
theorem sval_trunc16_tdiv {a b : Word} (h : ¬ (a = 0x8000 ∧ b = 0xFFFF)) :
    sval (trunc16 ((sval a).tdiv (sval b))) = (sval a).tdiv (sval b) := by
  rw [← sval_eq_min_iff, ← sval_eq_neg_one_iff] at h
  obtain ⟨ha1, ha2⟩ := sval_range a
  obtain ⟨h1, h2⟩ := tdiv_range ha1 ha2 h
  exact sval_trunc16 h1 h2

/-- The remainder is below the divisor in magnitude, so no remainder is out of range (R145). -/
theorem sval_modOp (a : Word) {b : Word} (hb : b ≠ 0) :
    sval (modOp a b) = (sval a).tmod (sval b) := by
  have hlt := natAbs_tmod_lt (sval a) (sval_ne_zero hb)
  obtain ⟨h1, h2⟩ := sval_range b
  rw [modOp, trem_eq_tmod]
  exact sval_trunc16 (by omega) (by omega)

/-- Settles O32: the divide step of a source that is not zero is a register write of the quotient. -/
theorem divTruncatesTowardZero : Obligations.DivTruncatesTowardZero := by
  intro d r k s
  refine ⟨fun hr => ?_, fun hk => ?_, fun _ h => sval_trunc16_tdiv h, fun hd => ?_⟩
  · rw [← divOp_eq_tdiv]
    exact regWritten_of_divide hr (exec_divReg d r s)
  · rw [← divOp_eq_tdiv]
    exact regWritten_of_divide hk (exec_divImm d k s)
  · have hw := regWritten_of_divide (by decide) (exec_divImm d 0xFFFF s)
    rwa [hd, divOp_overflow] at hw

/-- Settles O33: the written word reads as the truncated remainder, whose laws are those of the
integers. -/
theorem modTakesTheSignOfTheDividend : Obligations.ModTakesTheSignOfTheDividend := by
  intro d r k s
  refine ⟨fun hr => ⟨_, sval_modOp _ hr, regWritten_of_divide hr (exec_modReg d r s)⟩, fun hk => ?_⟩
  have hv := sval_modOp (s.reg d) hk
  refine ⟨_, hv, regWritten_of_divide hk (exec_modImm d k s), ?_, ?_⟩
  · rw [hv]
    exact natAbs_tmod_lt _ (sval_ne_zero hk)
  · refine or_iff_not_imp_left.mpr fun h0 => ?_
    have hne := sval_ne_zero h0
    rw [hv] at hne ⊢
    exact (tmod_eq_zero_or_sign _ _).resolve_left hne

end Sys2Proof.Machine
end

section
/-! PROOFS. AND, OR, XOR, NOT, SHL and SHR: what each form answers, the bits or the number each computes, and the equivalences R172 and R176 name. -/

namespace Sys2Proof.Machine

/-! ## What each form answers -/

section

variable (d r : Reg) (k : Word) (s : State)

/-- AND with a register (R170). -/
theorem exec_andReg : exec (.andReg d r) s = aluStep andOp d (s.reg r) s := rfl

/-- AND with a literal (R170). -/
theorem exec_andImm : exec (.andImm d k) s = aluStep andOp d k s := rfl

/-- OR with a register (R171). -/
theorem exec_orReg : exec (.orReg d r) s = aluStep orOp d (s.reg r) s := rfl

/-- OR with a literal (R171). -/
theorem exec_orImm : exec (.orImm d k) s = aluStep orOp d k s := rfl

/-- XOR with a register (R172). -/
theorem exec_xorReg : exec (.xorReg d r) s = aluStep xorOp d (s.reg r) s := rfl

/-- XOR with a literal (R172). -/
theorem exec_xorImm : exec (.xorImm d k) s = aluStep xorOp d k s := rfl

/-- NOT of a register (R173): the destination's old value does not enter. -/
theorem exec_notReg :
    exec (.notReg d r) s = .next ((s.setReg d (notOp (s.reg r))).advance 3) := rfl

/-- NOT of a literal (R173). -/
theorem exec_notImm : exec (.notImm d k) s = .next ((s.setReg d (notOp k)).advance 3) := rfl

/-- SHL by a register (R174). -/
theorem exec_shlReg : exec (.shlReg d r) s = aluStep shlOp d (s.reg r) s := rfl

/-- SHL by a literal (R174). -/
theorem exec_shlImm : exec (.shlImm d k) s = aluStep shlOp d k s := rfl

/-- SHR by a register (R175). -/
theorem exec_shrReg : exec (.shrReg d r) s = aluStep shrOp d (s.reg r) s := rfl

/-- SHR by a literal (R175). -/
theorem exec_shrImm : exec (.shrImm d k) s = aluStep shrOp d k s := rfl

end

/-! ## The bitwise operations -/

theorem getLsbD_andOp (a b : Word) (n : Nat) :
    (andOp a b).getLsbD n = (a.getLsbD n && b.getLsbD n) :=
  BitVec.getLsbD_and

theorem getLsbD_orOp (a b : Word) (n : Nat) :
    (orOp a b).getLsbD n = (a.getLsbD n || b.getLsbD n) :=
  BitVec.getLsbD_or

theorem getLsbD_xorOp (a b : Word) (n : Nat) :
    (xorOp a b).getLsbD n = (a.getLsbD n ^^ b.getLsbD n) :=
  BitVec.getLsbD_xor

theorem uval_notOp (b : Word) : uval (notOp b) = 65535 - uval b :=
  BitVec.toNat_not

/-- XOR with all ones complements (R172). -/
theorem xorOp_ones (a : Word) : xorOp a 0xFFFF = notOp a :=
  BitVec.xor_allOnes

/-- Settles O36: the words are rows of the opcode table, and each form writes its operation's result,
whose bits are the operation's of the two inputs' bits. -/
theorem bitwiseAndOrXorPerBit : Obligations.BitwiseAndOrXorPerBit := by
  intro d r k s
  obtain ⟨-, -, -, -, -, -, -, -, -, -, -, -, -, -, -, -, andReg, andImm, orReg, orImm, xorReg,
    xorImm, -⟩ := encodingFollowsTheOpcodeTable d r k
  exact ⟨andReg, andImm, orReg, orImm, xorReg, xorImm,
    ⟨_, regWritten_of_alu (exec_andReg d r s), fun n _ => getLsbD_andOp _ _ n⟩,
    ⟨_, regWritten_of_alu (exec_andImm d k s), fun n _ => getLsbD_andOp _ _ n⟩,
    ⟨_, regWritten_of_alu (exec_orReg d r s), fun n _ => getLsbD_orOp _ _ n⟩,
    ⟨_, regWritten_of_alu (exec_orImm d k s), fun n _ => getLsbD_orOp _ _ n⟩,
    ⟨_, regWritten_of_alu (exec_xorReg d r s), fun n _ => getLsbD_xorOp _ _ n⟩,
    ⟨_, regWritten_of_alu (exec_xorImm d k s), fun n _ => getLsbD_xorOp _ _ n⟩⟩

/-- Settles O37: NOT writes the complement of its source alone, and advances by 3 like every F2 form. -/
theorem notComplementsTheSource : Obligations.NotComplementsTheSource := fun d r k s =>
  ⟨⟨_, uval_notOp _, regWritten_of_exec (exec_notReg d r s)⟩,
    ⟨_, uval_notOp _, regWritten_of_exec (exec_notImm d k s)⟩⟩

/-! ## The shifts -/

/-- SHL without the model's case: from 16 on the power is a multiple of 65536, so the product leaves
nothing in the low 16 bits (R174). -/
theorem uval_shlOp (a b : Word) : uval (shlOp a b) = uval a * 2 ^ uval b % 65536 := by
  unfold shlOp
  split
  case isTrue h =>
    exact (Nat.mod_eq_zero_of_dvd ((pow_dvd_pow 2 h).mul_left (uval a))).symm
  case isFalse => exact_mod_cast uval_trunc16_natCast (uval a * 2 ^ uval b)

/-- Settles O38. -/
theorem shlMultipliesByPowerOfTwo : Obligations.ShlMultipliesByPowerOfTwo := fun d r k s =>
  ⟨⟨_, uval_shlOp _ _, regWritten_of_alu (exec_shlReg d r s)⟩,
    ⟨_, uval_shlOp _ _, regWritten_of_alu (exec_shlImm d k s)⟩⟩

/-- A quotient rounded down does not leave the signed range: a positive divisor moves the dividend
towards 0, or to -1. -/
theorem fdiv_range {a p : Int} (h1 : -32768 ≤ a) (h2 : a ≤ 32767) (hp : 0 < p) :
    -32768 ≤ a.fdiv p ∧ a.fdiv p ≤ 32767 := by
  rw [Int.fdiv_eq_ediv_of_nonneg a hp.le]
  exact ⟨(Int.le_ediv_iff_mul_le hp).mpr (by omega),
    Int.le_of_lt_add_one ((Int.ediv_lt_iff_lt_mul hp).mpr (by omega))⟩

/-- A divisor of 65536 or more is above every word's magnitude, so rounding down leaves only the
sign. -/
theorem fdiv_eq_sign_fill {a p : Int} (h1 : -32768 ≤ a) (h2 : a ≤ 32767) (hp : 65536 ≤ p) :
    a.fdiv p = if a < 0 then -1 else 0 := by
  rw [Int.fdiv_eq_ediv_of_nonneg a (by omega)]
  split
  case isTrue ha => exact Int.ediv_eq_neg_one_of_neg_of_le ha (by omega)
  case isFalse ha => exact Int.ediv_eq_zero_of_lt (by omega) (by omega)

/-- SHR without the model's case (R175): below 16 the quotient is a signed word as it is, from 16 on
it is the sign fill. -/
theorem sval_shrOp (a b : Word) : sval (shrOp a b) = (sval a).fdiv (2 ^ uval b) := by
  obtain ⟨h1, h2⟩ := sval_range a
  unfold shrOp
  split
  case isTrue h =>
    have hp : (65536 : Int) ≤ 2 ^ uval b := pow_le_pow_right₀ (a := (2 : Int)) (by decide) h
    rw [fdiv_eq_sign_fill h1 h2 hp]
    split <;> decide
  case isFalse =>
    obtain ⟨hq1, hq2⟩ := fdiv_range h1 h2 (pow_pos (by decide : (0 : Int) < 2) (uval b))
    exact sval_trunc16 hq1 hq2

/-- Settles O39. -/
theorem shrIsFloorDivisionByPowerOfTwo : Obligations.ShrIsFloorDivisionByPowerOfTwo := fun d r k s =>
  ⟨⟨_, sval_shrOp _ _, regWritten_of_alu (exec_shrReg d r s)⟩,
    ⟨_, sval_shrOp _ _, regWritten_of_alu (exec_shrImm d k s)⟩⟩

/-! ## Instructions that do the same -/

/-- For an amount of at most 15 the power is a word of its own, and shifting is multiplying (R176). -/
theorem shlOp_eq_mulOp (a : Word) {n : Nat} (h : n ≤ 15) :
    shlOp a (BitVec.ofNat 16 n) = mulOp a (BitVec.ofNat 16 (2 ^ n)) := by
  have hn : uval (BitVec.ofNat 16 n) = n := Nat.mod_eq_of_lt (by omega)
  have hp : uval (BitVec.ofNat 16 (2 ^ n)) = 2 ^ n :=
    Nat.mod_eq_of_lt (Nat.pow_lt_pow_right (by decide) (Nat.lt_succ_of_le h))
  apply BitVec.eq_of_toNat_eq
  calc uval (shlOp a (BitVec.ofNat 16 n))
    _ = uval a * 2 ^ n % 65536 := by rw [uval_shlOp, hn]
    _ = uval (mulOp a (BitVec.ofNat 16 (2 ^ n))) := by rw [uval_mulOp, hp]

/-- Settles O40: each pair of instructions writes one word to `d` and advances alike. -/
theorem equivalentInstructions : Obligations.EquivalentInstructions := by
  intro d s
  refine ⟨fun n hn => ?_, ?_⟩
  · rw [exec_shlImm, exec_mulImm, aluStep, aluStep, shlOp_eq_mulOp _ hn]
  · rw [exec_xorImm, exec_notReg, aluStep, xorOp_ones]

end Sys2Proof.Machine
end

section
/-! PROOFS. CMP: what each form answers, the flags as the signed order of the two inputs, and the conditional jumps that read them. -/

namespace Sys2Proof.Machine

/-! ## What each form answers -/

section

variable (d r : Reg) (k : Word) (s : State)

/-- CMP with a register (R200). -/
theorem exec_cmpReg : exec (.cmpReg d r) s = compareStep d (s.reg r) s := rfl

/-- CMP with a literal (R200). -/
theorem exec_cmpImm : exec (.cmpImm d k) s = compareStep d k s := rfl

end

/-! ## The flags are the signed order -/

theorem cmpGreater_iff (a b : Word) : cmpGreater a b = true ↔ sval a - sval b > 0 :=
  decide_eq_true_iff

theorem cmpLess_iff (a b : Word) : cmpLess a b = true ↔ sval a - sval b < 0 :=
  decide_eq_true_iff

/-- A compare step always completes, writes the two flags and advances by 3. -/
theorem compared_of_exec {i : Instr} {s : State} {d : Reg} {b : Word}
    (h : exec i s = compareStep d b s) : Compared i s (sval (s.reg d)) (sval b) :=
  ⟨_, h, cmpGreater_iff _ _, cmpLess_iff _ _, rfl, rfl,
    fun _ _ => rfl, fun _ _ => rfl, fun _ _ => rfl, rfl, rfl, rfl, rfl⟩

/-- Settles O41. -/
theorem cmpSetsFlagsBySignedOrder : Obligations.CmpSetsFlagsBySignedOrder := fun d r k s =>
  ⟨compared_of_exec (exec_cmpReg d r s), compared_of_exec (exec_cmpImm d k s)⟩

/-! ## The jumps read them as the order -/

/-- With the order of `a` and `b` in the flags, each jump's condition is the relation it is named
for (R201). -/
theorem jumpsFollow_of_flags {t : State} {a b : Int} (hgt : t.gt = true ↔ b < a)
    (hlt : t.lt = true ↔ a < b) (x : Word) : JumpsFollow t a b x := by
  have hge : t.lt = false ↔ b ≤ a := by rw [← Bool.not_eq_true, hlt, not_lt]
  have hle : t.gt = false ↔ a ≤ b := by rw [← Bool.not_eq_true, hgt, not_lt]
  have heq : t.lt = false ∧ t.gt = false ↔ a = b := by rw [hge, hle, and_comm, ← le_antisymm_iff]
  have hne : t.lt = true ∨ t.gt = true ↔ a ≠ b := by rw [hlt, hgt, lt_or_lt_iff_ne]
  refine ⟨?_, ?_, ?_, ?_, ?_, ?_⟩
  · simp only [exec_jeq, heq]
  · simp only [exec_jne, hne]
  · simp only [exec_jgt, hgt]
  · simp only [exec_jge, hge]
  · simp only [exec_jlt, hlt]
  · simp only [exec_jle, hle]

/-- The exact difference has the sign of the order, so the jumps after a compare follow it. -/
theorem Compared.jumpsFollow {i : Instr} {s t : State} {a b : Int} (h : Compared i s a b)
    (he : exec i s = .next t) (x : Word) : JumpsFollow t a b x := by
  obtain ⟨u, hu, hgt, hlt, -⟩ := h
  obtain rfl := eq_of_exec he hu
  exact jumpsFollow_of_flags (hgt.trans sub_pos) (hlt.trans sub_neg) x

/-- Settles O42: what a compare says of the flags is all that the jumps need. -/
theorem jumpsAfterCmpFollowTheOrder : Obligations.JumpsAfterCmpFollowTheOrder := fun d r y s _ =>
  ⟨fun he => (compared_of_exec (exec_cmpReg d r s)).jumpsFollow he y,
    fun c he => (compared_of_exec (exec_cmpImm d c s)).jumpsFollow he y⟩

end Sys2Proof.Machine
end

section
/-! PROOFS. JMP, the six conditional jumps, CALL and RET: the words and next state of each jump, what a call pushes and a return reads, and the return that would pop. -/

namespace Sys2Proof.Machine

/-! ## The jumps -/

/-- Settles O43: the words are rows of the opcode table, and each next state is the jump's own
equation, with its condition on the flags as a proposition. -/
theorem jumpsReadOnlyTheFlags : Obligations.JumpsReadOnlyTheFlags := by
  intro x s
  have table := encodingFollowsTheOpcodeTable .A .A x
  refine ⟨?_, exec_jmp x s, ?_, exec_jeq x s, ?_, exec_jne x s, ?_, exec_jgt x s, ?_, exec_jge x s,
    ?_, exec_jlt x s, ?_, exec_jle x s⟩ <;> simp only [table]

/-! ## CALL and RET -/

/-- CALL is the checked push of the return address `pc + 2`, going on at the target (R218). -/
theorem exec_call (x : Word) (s : State) :
    exec (.call x) s = pushStep (.call x) (s.pc + 2) (fun u => u.jumpTo x) s := by
  rw [← trunc16_pc_add_two]
  rfl

/-- Settles O44: below the last slot the push is not turned away, and a canonical STACK reads the
pushed word back. -/
theorem callPushesReturnAddress : Obligations.CallPushesReturnAddress := fun x s hw hsp =>
  pushed_of_exec hw hsp (exec_call x s) rfl

/-- Settles O45. -/
theorem retJumpsToTopOfStackWithoutPopping : Obligations.RetJumpsToTopOfStackWithoutPopping :=
  exec_ret

/-- Settles O47: the call leaves the return address on top, and RET reads it there and moves `pc`
alone, so the slot stays in use. -/
theorem callThenRetLeavesTheReturnSlot : Obligations.CallThenRetLeavesTheReturnSlot := by
  intro x s hw hlt
  obtain ⟨t, hcall, hsp, -, hread, -, -, hreg, -⟩ := callPushesReturnAddress x s hw hlt
  have htop : t.stackRead t.sp = s.pc + 2 := by rw [hsp, hread]
  exact ⟨t, _, hcall, exec_ret t, htop, hsp, htop, fun r => hreg r not_false⟩

/-! ## The return under the other value of `RET_POPS` -/

/-- Fault entry in the words of the statements: the cause by its code (R260, R269). -/
theorem takeFault_eq_afterFault (s : State) (c : FaultCause) (w : Word) :
    s.takeFault c w = afterFault s (causeCode c) w := rfl

/-- A popping return from an empty stack faults (R219, R267). -/
theorem returnStep_true_of_sp_eq_zero {s : State} (h : s.sp = 0) :
    returnStep true s = .next (s.takeFault .stackUnderflow Instr.ret.word0) :=
  if_pos h

/-- A popping return takes the top word as `pc` and gives its slot back (R219). -/
theorem returnStep_true_of_sp_ne_zero {s : State} (h : s.sp ≠ 0) :
    returnStep true s = .next ((s.jumpTo (s.stackRead s.sp)).setSp (s.sp - 1)) :=
  if_neg h

theorem word0_ret : Instr.ret.word0 = 0x1600 := rfl

/-- Settles O46: the two cases of the stack pointer, the fault with RET's own word. -/
theorem returnUnderTheOtherParameter : Obligations.ReturnUnderTheOtherParameter := by
  refine fun s => ⟨fun h => ?_, fun h => returnStep_true_of_sp_ne_zero h⟩
  rw [returnStep_true_of_sp_eq_zero h, takeFault_eq_afterFault, word0_ret]
  rfl

end Sys2Proof.Machine
end

section
/-! PROOFS. PUSH and POP: what each form answers, the word a push stores and a pop reads, and a pop undoing a push. -/

namespace Sys2Proof.Machine

/-! ## PUSH -/

section

variable (r : Reg) (k : Word) (s : State)

/-- PUSH of a register is the checked push of its value, going on after its two words (R240). -/
theorem exec_pushReg :
    exec (.pushReg r) s = pushStep (.pushReg r) (s.reg r) (fun t => t.advance 2) s := rfl

/-- PUSH of a literal is the checked push of that word, going on after its two words (R240). -/
theorem exec_pushImm : exec (.pushImm k) s = pushStep (.pushImm k) k (fun t => t.advance 2) s := rfl

end

/-- Settles O48: below the last slot neither push is turned away, and a canonical STACK reads the
pushed word back. -/
theorem pushStoresAtIncrementedPointer : Obligations.PushStoresAtIncrementedPointer :=
  fun r k s hw hsp =>
    ⟨pushed_of_exec hw hsp (exec_pushReg r s) rfl, pushed_of_exec hw hsp (exec_pushImm k s) rfl⟩

/-! ## POP -/

/-- POP from a stack in use takes the top word and gives its slot back (R241). -/
theorem exec_pop_of_sp_ne_zero (d : Reg) {s : State} (h : s.sp ≠ 0) :
    exec (.pop d) s = .next (((s.setReg d (s.stackRead s.sp)).setSp (s.sp - 1)).advance 2) :=
  if_neg h

theorem uval_pos_of_ne_zero {w : Word} (h : w ≠ 0) : 0 < uval w :=
  Nat.pos_of_ne_zero fun e => h (BitVec.eq_of_toNat_eq e)

/-- A pop that is not turned away does not wrap the stack pointer. -/
theorem uval_sub_one_of_ne_zero {w : Word} (h : w ≠ 0) : uval (w - 1) = uval w - 1 :=
  BitVec.toNat_sub_of_le (uval_pos_of_ne_zero h)

/-- Settles O49: above 0 the pop is not turned away, and its state is a register write with `sp` one
lower. -/
theorem popReadsTopAndDecrements : Obligations.PopReadsTopAndDecrements := by
  intro d s h
  have hpos := uval_pos_of_ne_zero h
  have hsub := uval_sub_one_of_ne_zero h
  exact ⟨_, exec_pop_of_sp_ne_zero d h, State.reg_setReg_same .., hsub,
    hsub.trans_lt (Nat.sub_one_lt_of_lt hpos), rfl, ⟨rfl, rfl⟩,
    fun _ hq => State.reg_setReg_ne s _ hq, fun _ _ => rfl, fun _ _ => rfl, rfl, rfl, rfl, rfl⟩

/-! ## POP after PUSH -/

/-- After any completed push, CALL's included, POP finds a stack in use, takes the pushed word off the
slot it was stored at and puts `sp` back (R242). -/
theorem Pushed.pop {i : Instr} {s : State} {v target : Word} (h : Pushed i s v target) (d : Reg) :
    ∃ t u, exec i s = .next t ∧ exec (.pop d) t = .next u ∧ u.reg d = v ∧ u.sp = s.sp ∧
      u.pc = target + 2 ∧ FlagsKept s u ∧ (∀ q, q ≠ d → u.reg q = s.reg q) ∧
      (∀ a, u.ramRead a = s.ramRead a) := by
  obtain ⟨t, hpush, hsp, hup, htop, hpc, ⟨hlt, hgt⟩, hreg, hram, -⟩ := h
  have hne : t.sp ≠ 0 := fun e => by
    rw [e] at hup
    exact Nat.succ_ne_zero _ hup.symm
  obtain ⟨u, hpop, hd, hdown, -, hpc', ⟨hlt', hgt'⟩, hreg', hram', -⟩ :=
    popReadsTopAndDecrements d t hne
  have hback : u.sp = s.sp := BitVec.eq_of_toNat_eq <|
    calc uval u.sp
      _ = uval t.sp - 1 := hdown
      _ = uval s.sp := by rw [hup, Nat.add_sub_cancel]
  exact ⟨t, u, hpush, hpop, by rw [hd, hsp, htop], hback, by rw [hpc', hpc],
    ⟨hlt'.trans hlt, hgt'.trans hgt⟩, fun q hq => (hreg' q hq).trans (hreg q not_false),
    fun a => (hram' a not_false).trans (hram a not_false)⟩

/-- Settles O52: each pushing form is a completed push that goes on at `pc + 2`, and the pop after it
adds its own 2. -/
theorem pushThenPopRestores : Obligations.PushThenPopRestores := by
  intro r d k s hw hsp i v hi
  obtain ⟨hreg, himm⟩ := pushStoresAtIncrementedPointer r k s hw hsp
  have hpushed : Pushed i s v (s.pc + 2) := by
    rcases hi with ⟨rfl, rfl⟩ | ⟨rfl, rfl⟩
    · exact hreg
    · exact himm
  have hpc : s.pc + 2 + 2 = s.pc + 4 := BitVec.add_assoc ..
  rw [← hpc]
  exact hpushed.pop d

end Sys2Proof.Machine
end

section
/-! PROOFS. The faults: which words the decoder rejects and for which cause, what each execution fault leaves, and that a faulting step writes the record alone. -/

namespace Sys2Proof

/-! ## The instruction word -/

theorem Opcode.mem_all (op : Opcode) : op ∈ Opcode.all := by
  cases op <;> decide

theorem Mode.mem_all (m : Mode) : m ∈ Mode.all := by
  cases m <;> decide

theorem Opcode.ofOrdinal?_hiByte_eq_none_iff (w : Word) :
    Opcode.ofOrdinal? (hiByte w) = none ↔ 26 ≤ uval w / 256 := by
  rw [Opcode.ofOrdinal?_eq_none_iff, hiByte_toNat]

theorem Mode.ofOrdinal?_loByte_eq_none_iff (w : Word) :
    Mode.ofOrdinal? (loByte w) = none ↔ 4 ≤ uval w % 256 := by
  rw [Mode.ofOrdinal?_eq_none_iff, loByte_toNat]

/-- The opcode byte is defined up to 25 (R82). -/
theorem exists_opcode_iff (w : Word) :
    (∃ op, Opcode.ofOrdinal? (hiByte w) = some op) ↔ uval w / 256 ≤ 25 := by
  rw [← Option.ne_none_iff_exists', ne_eq, Opcode.ofOrdinal?_hiByte_eq_none_iff]
  omega

/-- The mode byte is defined up to 3 (R83). -/
theorem exists_mode_iff (w : Word) :
    (∃ m, Mode.ofOrdinal? (loByte w) = some m) ↔ uval w % 256 ≤ 3 := by
  rw [← Option.ne_none_iff_exists', ne_eq, Mode.ofOrdinal?_loByte_eq_none_iff]
  omega

theorem decodePair_of_undefined_opcode {w : Word} (h : 26 ≤ uval w / 256) :
    decodePair w = .bad .illegalOpcode := by
  simp [decodePair, (Opcode.ofOrdinal?_hiByte_eq_none_iff w).mpr h]

theorem decodePair_of_undefined_mode {w : Word} (ho : uval w / 256 ≤ 25) (hm : 4 ≤ uval w % 256) :
    decodePair w = .bad .illegalMode := by
  obtain ⟨op, hop⟩ := (exists_opcode_iff w).mpr ho
  simp [decodePair, hop, (Mode.ofOrdinal?_loByte_eq_none_iff w).mpr hm]

/-- The packed words are those whose two bytes are both defined (R81). -/
theorem exists_codec_iff (w : Word) :
    (∃ op m, codec op m = w) ↔ uval w / 256 ≤ 25 ∧ uval w % 256 ≤ 3 := by
  rw [← exists_opcode_iff, ← exists_mode_iff]
  constructor
  · rintro ⟨op, m, rfl⟩
    exact ⟨⟨op, by simp [codec, hiByte_append]⟩, ⟨m, by simp [codec, loByte_append]⟩⟩
  · rintro ⟨⟨op, hop⟩, ⟨m, hm⟩⟩
    exact ⟨op, m, codec_of_decodePair (by simp [decodePair, hop, hm])⟩

/-! ## The operand words -/

/-- An operand word that the form `f` reads as a register ordinal is above 7 (R265). -/
def Form.HasBadRegister (f : Form) (rest : List Word) : Prop :=
  (f.readsReg[0]? = some true ∧ ∃ w1, rest[0]? = some w1 ∧ 7 < uval w1) ∨
  (f.readsReg[1]? = some true ∧ ∃ w2, rest[1]? = some w2 ∧ 7 < uval w2)

/-- Everything the last steps of R88 can answer: too few words, a bad register among enough words,
or an instruction. -/
theorem decodeOperands_cases (f : Form) (rest : List Word) :
    (rest.length < f.readsReg.length ∧ decodeOperands f rest = .bad .truncated) ∨
    (f.readsReg.length ≤ rest.length ∧ f.HasBadRegister rest ∧
      ∃ r, decodeOperands f rest = .bad r ∧ Machine.rejectCause r = .badRegister) ∨
    (f.readsReg.length ≤ rest.length ∧ ¬ f.HasBadRegister rest ∧
      ∃ i, decodeOperands f rest = .ok i) := by
  simp only [Form.HasBadRegister, ← Reg.ofOrdinal?_eq_none_iff]
  cases f with
  | none i => simp [Form.readsReg, decodeOperands]
  | reg mk =>
    cases rest with
    | nil => simp [Form.readsReg, decodeOperands]
    | cons w1 tl =>
      cases h1 : Reg.ofOrdinal? w1 <;>
        simp [Form.readsReg, decodeOperands, Machine.rejectCause, h1]
  | word mk => cases rest <;> simp [Form.readsReg, decodeOperands]
  | regReg mk =>
    match rest with
    | [] | [_] => simp [Form.readsReg, decodeOperands]
    | w1 :: w2 :: tl =>
      cases h1 : Reg.ofOrdinal? w1 <;> cases h2 : Reg.ofOrdinal? w2 <;>
        simp [Form.readsReg, decodeOperands, Machine.rejectCause, h1, h2]
  | regWord mk =>
    match rest with
    | [] | [_] => simp [Form.readsReg, decodeOperands]
    | w1 :: w2 :: tl =>
      cases h1 : Reg.ofOrdinal? w1 <;>
        simp [Form.readsReg, decodeOperands, Machine.rejectCause, h1]

end Sys2Proof

namespace Sys2Proof.Machine

/-! ## The numbers of the opcode table -/

/-- The 42 words, in their order, are the packed pairs that have a form (R87). -/
theorem legalWords_eq : legalWords = Opcode.all.flatMap fun op =>
    (Mode.all.filter fun m => (form op m).isSome).map (codec op) := by
  decide

theorem mem_legalWords_iff (w : Word) :
    w ∈ legalWords ↔ ∃ op m f, codec op m = w ∧ form op m = some f := by
  simp [legalWords_eq, Opcode.mem_all, Mode.mem_all, Option.isSome_iff_exists, and_comm]

theorem codec_mem_legalWords_iff (op : Opcode) (m : Mode) :
    codec op m ∈ legalWords ↔ ∃ f, form op m = some f := by
  simp [mem_legalWords_iff, codec_inj, and_assoc]

section
variable {op : Opcode} {m : Mode} {f : Form} (hf : form op m = some f)
include hf

theorem decode_codec_of_form (rest : List Word) :
    decode (codec op m) rest = decodeOperands f rest := by
  simp [decode, hf]

theorem lengthOf_of_form : lengthOf (codec op m) = f.readsReg.length + 1 := by
  cases op <;> cases m <;> cases hf <;> decide

theorem codec_notMem_plainW1_iff : codec op m ∉ plainW1 ↔ f.readsReg[0]? = some true := by
  cases op <;> cases m <;> cases hf <;> decide

theorem codec_mem_registerW2_iff : codec op m ∈ registerW2 ↔ f.readsReg[1]? = some true := by
  cases op <;> cases m <;> cases hf <;> decide

theorem hasBadRegister_codec_iff (rest : List Word) :
    HasBadRegister (codec op m) rest ↔ f.HasBadRegister rest := by
  rw [HasBadRegister, codec_notMem_plainW1_iff hf, codec_mem_registerW2_iff hf, Form.HasBadRegister]

end

/-! ## What the decoder rejects -/

/-- What the words at `pc`, `w0` and then `rest`, must be for the decoder to raise the cause `c`
(R261 to R265, in the order of R88); it raises none of the execution faults. -/
def RaisedBy (w0 : Word) (rest : List Word) : FaultCause → Prop
  | .illegalOpcode => 26 ≤ uval w0 / 256
  | .illegalMode => uval w0 / 256 ≤ 25 ∧ 4 ≤ uval w0 % 256
  | .illegalPair => uval w0 / 256 ≤ 25 ∧ uval w0 % 256 ≤ 3 ∧ w0 ∉ legalWords
  | .truncatedInstruction => w0 ∈ legalWords ∧ (w0 :: rest).length < lengthOf w0
  | .badRegister =>
    w0 ∈ legalWords ∧ lengthOf w0 ≤ (w0 :: rest).length ∧ HasBadRegister w0 rest
  | .stackOverflow | .stackUnderflow | .divideByZero => False

/-- `decodeOperands_cases` for a legal word, in the numbers of the table. -/
theorem decode_cases_of_legal {w0 : Word} (h : w0 ∈ legalWords) (rest : List Word) :
    ((w0 :: rest).length < lengthOf w0 ∧ decode w0 rest = .bad .truncated) ∨
    (lengthOf w0 ≤ (w0 :: rest).length ∧ HasBadRegister w0 rest ∧
      ∃ r, decode w0 rest = .bad r ∧ rejectCause r = .badRegister) ∨
    (lengthOf w0 ≤ (w0 :: rest).length ∧ ¬ HasBadRegister w0 rest ∧
      ∃ i, decode w0 rest = .ok i) := by
  obtain ⟨op, m, f, rfl, hf⟩ := (mem_legalWords_iff w0).mp h
  rw [decode_codec_of_form hf, lengthOf_of_form hf, hasBadRegister_codec_iff hf, List.length_cons,
    Nat.add_lt_add_iff_right, Nat.add_le_add_iff_right]
  exact decodeOperands_cases f rest

/-- Words that meet the condition of a cause are rejected for that cause. -/
theorem decode_bad_of_raisedBy {w0 : Word} {rest : List Word} {c : FaultCause}
    (h : RaisedBy w0 rest c) : ∃ r, decode w0 rest = .bad r ∧ rejectCause r = c := by
  cases c with
  | illegalOpcode => exact ⟨.illegalOpcode, by rw [decode, decodePair_of_undefined_opcode h], rfl⟩
  | illegalMode =>
    obtain ⟨ho, hm⟩ := h
    exact ⟨.illegalMode, by rw [decode, decodePair_of_undefined_mode ho hm], rfl⟩
  | illegalPair =>
    obtain ⟨ho, hm, hlegal⟩ := h
    obtain ⟨op, m, rfl⟩ := (exists_codec_iff w0).mpr ⟨ho, hm⟩
    have hf : form op m = none := Option.eq_none_iff_forall_ne_some.mpr fun f hf =>
      hlegal ((codec_mem_legalWords_iff op m).mpr ⟨f, hf⟩)
    exact ⟨.illegalPair, by simp [decode, hf], rfl⟩
  | truncatedInstruction =>
    obtain ⟨hlegal, hshort⟩ := h
    rcases decode_cases_of_legal hlegal rest with ⟨-, hd⟩ | ⟨hlong, -⟩ | ⟨hlong, -⟩
    · exact ⟨_, hd, rfl⟩
    · exact absurd hshort hlong.not_gt
    · exact absurd hshort hlong.not_gt
  | badRegister =>
    obtain ⟨hlegal, hlong, hbad⟩ := h
    rcases decode_cases_of_legal hlegal rest with ⟨hshort, -⟩ | ⟨-, -, hd⟩ | ⟨-, hgood, -⟩
    · exact absurd hshort hlong.not_gt
    · exact hd
    · exact absurd hbad hgood
  | stackOverflow | stackUnderflow | divideByZero => exact h.elim

/-- Words that are rejected meet the condition of the cause. -/
theorem raisedBy_of_decode_bad {w0 : Word} {rest : List Word} {r : Reject}
    (h : decode w0 rest = .bad r) : RaisedBy w0 rest (rejectCause r) := by
  rcases decode_bad h with ⟨rfl, ho⟩ | ⟨rfl, ho, hm⟩ | ⟨op, m, hp, hrest⟩
  · exact (Opcode.ofOrdinal?_hiByte_eq_none_iff w0).mp ho
  · exact ⟨(exists_opcode_iff w0).mp (Option.ne_none_iff_exists'.mp ho),
      (Mode.ofOrdinal?_loByte_eq_none_iff w0).mp hm⟩
  · obtain rfl := codec_of_decodePair hp
    rcases hrest with ⟨rfl, hf⟩ | ⟨f, hf, -⟩
    · obtain ⟨ho, hm⟩ := (exists_codec_iff _).mp ⟨op, m, rfl⟩
      exact ⟨ho, hm, by simp [codec_mem_legalWords_iff, hf]⟩
    · have hlegal : codec op m ∈ legalWords := (codec_mem_legalWords_iff op m).mpr ⟨f, hf⟩
      rcases decode_cases_of_legal hlegal rest with
        ⟨hshort, hd⟩ | ⟨hlong, hbad, q, hd, hq⟩ | ⟨-, -, i, hd⟩
      · cases h.symm.trans hd
        exact ⟨hlegal, hshort⟩
      · cases h.symm.trans hd
        rw [hq]
        exact ⟨hlegal, hlong, hbad⟩
      · cases h.symm.trans hd

/-! ## The faults of a word -/

theorem causeCode_injective {a b : FaultCause} (h : causeCode a = causeCode b) : a = b := by
  cases a <;> cases b <;> revert h <;> decide

section
variable {s : State} {w0 : Word} {rest : List Word} (hr : ReadyAt s w0 rest)
include hr

theorem step_of_raisedBy {c : FaultCause} (h : RaisedBy w0 rest c) :
    step s = .next (afterFault s (causeCode c) w0) := by
  obtain ⟨r, hd, rfl⟩ := decode_bad_of_raisedBy h
  exact step_of_bad hr hd

/-- A step records a cause that no instruction raises only where the decoder rejects the words. -/
theorem raisedBy_of_step {c : FaultCause}
    (hc : ¬ (c = .divideByZero ∨ c = .stackOverflow ∨ c = .stackUnderflow)) {t : State}
    (h : step s = .next t) (ht : t.faultCause = causeCode c) : RaisedBy w0 rest c := by
  cases hd : decode w0 rest with
  | ok i =>
    rw [step_of_ready hr, hd] at h
    obtain ⟨-, h0, -⟩ := hr
    rcases exec_cause h with hs | ⟨e, he, rfl⟩
    · exact absurd (ht.symm.trans (hs.trans h0)) (causeCode_range c).1
    · exact absurd (causeCode_injective ht ▸ he) hc
  | bad r =>
    cases (step_of_bad hr hd).symm.trans h
    rw [← causeCode_injective ht]
    exact raisedBy_of_decode_bad hd

/-- An instruction reaches past PROG_LEN exactly when the words at `pc` are too few for it (R91). -/
theorem programLength_lt_iff :
    s.program.length < uval s.pc + lengthOf w0 ↔ (w0 :: rest).length < lengthOf w0 := by
  rw [length_of_ready hr, List.length_cons]
  omega

theorem le_programLength_iff :
    uval s.pc + lengthOf w0 ≤ s.program.length ↔ lengthOf w0 ≤ (w0 :: rest).length := by
  rw [← Nat.not_lt, programLength_lt_iff hr, Nat.not_lt]

end

/-- Settles O7: the first check of the decoder. -/
theorem undefinedOpcodeFaults : Obligations.UndefinedOpcodeFaults := fun _ _ _ hr =>
  ⟨step_of_raisedBy hr (c := .illegalOpcode),
    fun _ => raisedBy_of_step hr (c := .illegalOpcode) (by decide)⟩

/-- Settles O8: the second check of the decoder. -/
theorem undefinedModeFaults : Obligations.UndefinedModeFaults := fun _ _ _ hr =>
  ⟨fun ho hm => step_of_raisedBy hr (c := .illegalMode) ⟨ho, hm⟩,
    fun _ => raisedBy_of_step hr (c := .illegalMode) (by decide)⟩

/-- Settles O9: the third check of the decoder, whose table of forms holds the 42 words. -/
theorem incompatiblePairFaults : Obligations.IncompatiblePairFaults := fun _ _ _ hr =>
  ⟨fun ho hm hlegal => step_of_raisedBy hr (c := .illegalPair) ⟨ho, hm, hlegal⟩,
    fun _ => raisedBy_of_step hr (c := .illegalPair) (by decide)⟩

/-- Settles O10: the decoder has the words of the Program from `pc` on, so it misses one exactly when
the instruction reaches past PROG_LEN. -/
theorem truncatedInstructionFaults : Obligations.TruncatedInstructionFaults := by
  intro s w0 rest hr
  rw [programLength_lt_iff hr]
  exact ⟨fun hlegal hshort => step_of_raisedBy hr (c := .truncatedInstruction) ⟨hlegal, hshort⟩,
    fun _ => raisedBy_of_step hr (c := .truncatedInstruction) (by decide)⟩

/-- Settles O11: the decoder checks the registers of a legal word that has its operands. -/
theorem registerOperandAboveSevenFaults : Obligations.RegisterOperandAboveSevenFaults := by
  intro s w0 rest hr
  rw [le_programLength_iff hr]
  exact ⟨fun hlegal hlong hbad => step_of_raisedBy hr (c := .badRegister) ⟨hlegal, hlong, hbad⟩,
    fun _ => raisedBy_of_step hr (c := .badRegister) (by decide)⟩

/-! ## The faults of an execution -/

section
variable {i : Instr} {s : State} {w : Word} (hw : i.word0 = w)
include hw

/-- A divide step of a zero source faults (R268). -/
theorem afterFault_of_divide_zero {op : Word → Word → Word} {d : Reg} {b : Word} (hb : b = 0)
    (h : exec i s = divideStep op i d b s) : exec i s = .next (afterFault s 8 w) := by
  subst hw
  exact h.trans (if_pos hb)

/-- A push onto a full stack faults (R266). -/
theorem afterFault_of_push_full {v : Word} {go : State → State} (hsp : uval s.sp = 65535)
    (h : exec i s = pushStep i v go s) : exec i s = .next (afterFault s 6 w) := by
  subst hw
  exact h.trans (if_pos ((sp_eq_spMax_iff s).mpr hsp))

end

/-- A pop from an empty stack faults (R267). -/
theorem exec_pop_of_sp_eq_zero (d : Reg) {s : State} (h : s.sp = 0) :
    exec (.pop d) s = .next (s.takeFault .stackUnderflow (Instr.pop d).word0) :=
  if_pos h

/-- Settles O35: the four divide steps, each with its word of the table. -/
theorem zeroDivisorFaults : Obligations.ZeroDivisorFaults := fun d r s =>
  have divReg : codec .DIV .REGISTER = 0x0501 := by decide
  have divImm : codec .DIV .IMMEDIATE = 0x0502 := by decide
  have modReg : codec .MOD .REGISTER = 0x0601 := by decide
  have modImm : codec .MOD .IMMEDIATE = 0x0602 := by decide
  ⟨fun hb => ⟨afterFault_of_divide_zero divReg hb (exec_divReg d r s),
      afterFault_of_divide_zero modReg hb (exec_modReg d r s)⟩,
    afterFault_of_divide_zero divImm rfl (exec_divImm d 0 s),
    afterFault_of_divide_zero modImm rfl (exec_modImm d 0 s)⟩

/-- Settles O50: the three checked pushes, each with its word of the table. -/
theorem pushOnFullStackFaults : Obligations.PushOnFullStackFaults := fun r k s hsp =>
  have pushReg : codec .PUSH .REGISTER = 0x1801 := by decide
  have pushImm : codec .PUSH .IMMEDIATE = 0x1802 := by decide
  have call : codec .CALL .IMPLIED = 0x1500 := by decide
  ⟨afterFault_of_push_full pushReg hsp (exec_pushReg r s),
    afterFault_of_push_full pushImm hsp (exec_pushImm k s),
    afterFault_of_push_full call hsp (exec_call k s)⟩

/-- Settles O51: a pop from an empty stack, with its word of the table. -/
theorem popOnEmptyStackFaults : Obligations.PopOnEmptyStackFaults := by
  intro d s hsp
  have pop : (Instr.pop d).word0 = 0x1900 := show codec .POP .IMPLIED = 0x1900 by decide
  have h0 : s.sp = 0 := BitVec.eq_of_toNat_eq hsp
  rw [exec_pop_of_sp_eq_zero d h0, pop, takeFault_eq_afterFault]
  rfl

/-! ## What any faulting step leaves -/

/-- A step that faults, in the decoder or in the instruction, takes one fault with the word at `pc`. -/
theorem exists_takeFault_of_step {s t : State} (h : step s = .next t) (ht : t.faultCause ≠ 0) :
    ∃ c w, s.program[uval s.pc]? = some w ∧ t = s.takeFault c w := by
  obtain ⟨w0, rest, hr, ⟨i, hd, he⟩ | ⟨r, -, rfl⟩⟩ := step_cases h
  · have hword := word_of_ready hr
    obtain ⟨-, hc, -⟩ := hr
    rcases exec_cause he with hs | ⟨c, -, rfl⟩
    · exact absurd (hs.trans hc) ht
    · exact ⟨c, i.word0, by rw [hword, word0_of_decode hd], rfl⟩
  · exact ⟨rejectCause r, w0, word_of_ready hr, rfl⟩

/-- Settles O21: fault entry writes the record alone, with one of the eight codes. -/
theorem faultingStepWritesOnlyTheRecord : Obligations.FaultingStepWritesOnlyTheRecord := by
  intro s t _ h ht
  obtain ⟨c, w, hw, rfl⟩ := exists_takeFault_of_step h ht
  exact ⟨(causeCode_range c).2, w, hw, takeFault_eq_afterFault s c w⟩

end Sys2Proof.Machine
end

section
/-! PROOFS. Boot: it places a Program that fits and resets the machine, and what reset leaves is good. -/

namespace Sys2Proof.Machine

/-- Reset in any state whose Program fits gives a good state, since no other clause of the invariant
depends on the Program while the fault record is clear (R305). -/
theorem inv_assertReset {s : State} (hs : s.program.length ≤ 65535) : Inv s.assertReset :=
  have hreset : Inv State.reset := invariantHoldsAtReset
  { hreset with
    programFits := hs
    recordSet := fun hc => absurd rfl hc }

/-- The two steps of R302: the host places the Program, then asserts reset. -/
theorem boot_of_fits {p : List Word} (hp : p.length ≤ 65535) :
    boot p = some ({ State.reset with program := p } : State).assertReset :=
  if_pos ((programWellFormed_iff p).mpr hp)

theorem boot_of_long {p : List Word} (hp : 65535 < p.length) : boot p = none :=
  if_neg fun hw => Nat.not_le.mpr hp ((programWellFormed_iff p).mp hw)

/-- Settles O17: boot is a reset with the Program placed, and reset zeroes everything else. -/
theorem bootPlacesTheProgramAndZeroesTheRest :
    Obligations.BootPlacesTheProgramAndZeroesTheRest := fun _ =>
  ⟨fun hp => ⟨_, boot_of_fits hp, rfl, allZero_assertReset _, inv_assertReset hp⟩, boot_of_long⟩

end Sys2Proof.Machine
end
